-- ==== Sys2Proof/Word.lean ====
section
/-!
DEFINITION. The data widths of the chirp-8 CORE (spec/00_scope.md R8): an 8-bit byte (registers, timers, memory
cells) and a 16-bit word (instruction words, `I`, `pc`, call-stack entries). All values are unsigned (R11).
-/

namespace Sys2Proof

/-- An 8-bit value: a general register (10_state.md R20), a timer (R32, R33), a memory cell (20_memory.md R51). -/
abbrev Byte := BitVec 8

/-- A 16-bit value: an instruction word (30_encoding.md R70), `I` (10_state.md R23), `pc` (R24), a stack entry (R27). -/
abbrev Word := BitVec 16

/-- The index of a general register, 0 to 15: "register indices are always in [0, 15]" (30_encoding.md R77). -/
abbrev Reg := Fin 16

end Sys2Proof
end

