-- ==== Sys2Proof/Config.lean ====
section
/-!
DEFINITION. What is fixed for a whole run: the configuration record `cfg` (spec/00_scope.md R9, 10_state.md R36) and
the named parameters of R10; and the FREE VALUES of the model, opaque constants that nothing in Lean can evaluate:
the inputs of the first cycle and of cycles beyond the list in State (log 1 to log 3) and the state a fault leaves behind (log 8).
-/

namespace Sys2Proof

/-- The configuration record `cfg`: eight inputs, constant for a run, read-only to the program (00_scope.md R9,
10_state.md R36). Only the four quirk bits affect an instruction; the two rates are timing only
(70_reset_and_hazards.md R222, 60_exceptions.md R196) and the last two are "cosmetic only". -/
structure Cfg where
  /-- Strap bit 0: Shr and Shl copy `x[Y]` into `x[X]` before shifting (41_alu.md R130, R132). -/
  oldShiftBehavior : Bool
  /-- Strap bit 1: JumpV0 adds `x[X]` instead of `x[0]` (40_control_flow.md R104). -/
  newJumpBehavior : Bool
  /-- Strap bit 2: RegStore and RegLoad leave `I` advanced by X + 1 (42_index_memory.md R145, R146). -/
  oldStoreLoadBehavior : Bool
  /-- Strap bit 3: AddIndex sets `x[15]` to 1 when the new `I` is 4096 or more (42_index_memory.md R142). -/
  indexOverflowFlag : Bool
  /-- `instructions_per_second`; no rule depends on it (70_reset_and_hazards.md R222; log 4). -/
  instructionsPerSecond : Nat
  /-- `timer_period_ms`; no rule depends on it (60_exceptions.md R196; log 4). -/
  timerPeriodMs : Nat
  /-- `display_scale`, an integer of the renderer. -/
  displayScale : Int
  /-- `volume`, 0 to 100, of the audio sink. -/
  volume : Fin 101
deriving DecidableEq, Repr

/-- The parameter STACK_DEPTH: "any integer >= 1, or `unbounded`" (00_scope.md R10, 10_state.md R28). -/
inductive StackDepth where
  | bounded (n : Nat)
  | unbounded
deriving DecidableEq, Repr

/-- The named parameters the spec adds (00_scope.md R10), constant for a run. Their legal values are checked by
`Params.wf` (WellFormed.lean). -/
structure Params where
  /-- Capacity of the call stack (10_state.md R28). -/
  stackDepth : StackDepth
  /-- FONT_BASE, the address of glyph 0 (20_memory.md R57). -/
  fontBase : Nat
  /-- FONT_DATA, the 80 glyph bytes (20_memory.md R58). -/
  fontData : Vector Byte 80
  /-- INDEX_OVERFLOW_CLEARS: whether AddIndex writes 0 to `x[15]` under the quirk when `I` stays below 4096
  (42_index_memory.md R142). -/
  indexOverflowClears : Bool
deriving DecidableEq, Repr

/-! ## Free values: inputs of the first cycle and past the end of `State.env`

Applied to the counter `State.draws`. "The model treats every input as a free value chosen by the environment in each
cycle, under no law except the stated type" (10_state.md R40). -/

/-- `in.keys` of a cycle (10_state.md R41). -/
opaque Config.freeKeys : Nat → BitVec 16
/-- `in.quit` of a cycle (10_state.md R42). -/
opaque Config.freeQuit : Nat → Bool
/-- `in.rand` of a cycle (10_state.md R43). -/
opaque Config.freeRand : Nat → BitVec 8
/-- `in.ticks` of a cycle (10_state.md R44). -/
opaque Config.freeTicks : Nat → Nat

/-! ## Free values: the state a fault leaves behind

"every part of the state other than `run` and `fault` is unspecified (any value) after a fault" (60_exceptions.md
R185). The first argument is the counter `State.draws` at the fault. -/

/-- A general register after a fault: counter, register number. -/
opaque Config.postFaultReg : Nat → Nat → BitVec 8
/-- `I` after a fault. -/
opaque Config.postFaultIndex : Nat → BitVec 16
/-- `pc` after a fault. -/
opaque Config.postFaultPc : Nat → BitVec 16
/-- The call stack after a fault, before it is cut to its capacity. -/
opaque Config.postFaultStack : Nat → List (BitVec 16)
/-- `DT` after a fault. -/
opaque Config.postFaultDelay : Nat → BitVec 8
/-- `ST` after a fault. -/
opaque Config.postFaultSound : Nat → BitVec 8
/-- A pixel of `fb` after a fault: counter, row, column. -/
opaque Config.postFaultPixel : Nat → Nat → Nat → Bool
/-- A pixel of `fb_prev` after a fault: counter, row, column. -/
opaque Config.postFaultPrevPixel : Nat → Nat → Nat → Bool
/-- A memory cell after a fault: counter, address. -/
opaque Config.postFaultByte : Nat → Nat → BitVec 8

end Sys2Proof
end

