-- ==== Sys2Proof/Syntax.lean ====
section
/-!
DEFINITION. The 34 decoded instructions, one constructor per row of spec/opcode_table.json (30_encoding.md R74), with
the operand fields of the row's format (R71, R72). A decoded instruction is "an immutable decoded value" and no part
of the state (10_state.md R39).
-/

namespace Sys2Proof

/-- A decoded instruction. Register fields are indices 0 to 15; `nn` is 8 bits, `nnn` 12 bits, `n` 4 bits, all
unsigned (30_encoding.md R73). Rows are in the order of R74's table. -/
inductive Instr where
  /-- `00E0` -/
  | clearScreen
  /-- `00EE` -/
  | ret
  /-- `1NNN` -/
  | jump (nnn : BitVec 12)
  /-- `2NNN` -/
  | call (nnn : BitVec 12)
  /-- `3XNN` -/
  | skipEqIm (x : Reg) (nn : Byte)
  /-- `4XNN` -/
  | skipNeIm (x : Reg) (nn : Byte)
  /-- `5XY0` -/
  | skipEq (x y : Reg)
  /-- `6XNN` -/
  | setIm (x : Reg) (nn : Byte)
  /-- `7XNN` -/
  | addIm (x : Reg) (nn : Byte)
  /-- `8XY0` -/
  | set (x y : Reg)
  /-- `8XY1` -/
  | or (x y : Reg)
  /-- `8XY2` -/
  | and (x y : Reg)
  /-- `8XY3` -/
  | xor (x y : Reg)
  /-- `8XY4` -/
  | add (x y : Reg)
  /-- `8XY5` -/
  | sub (x y : Reg)
  /-- `8XY6`; the Y field is always decoded (41_alu.md R130) -/
  | shr (x y : Reg)
  /-- `8XY7` -/
  | subOpp (x y : Reg)
  /-- `8XYE`; the Y field is always decoded (41_alu.md R132) -/
  | shl (x y : Reg)
  /-- `9XY0` -/
  | skipNe (x y : Reg)
  /-- `ANNN` -/
  | setIndex (nnn : BitVec 12)
  /-- `BNNN`; X is the high nibble of NNN (40_control_flow.md R104) -/
  | jumpV0 (nnn : BitVec 12)
  /-- `CXNN` -/
  | randAnd (x : Reg) (nn : Byte)
  /-- `DXYN` -/
  | draw (x y : Reg) (n : BitVec 4)
  /-- `EX9E` -/
  | skipKeyEq (x : Reg)
  /-- `EXA1` -/
  | skipKeyNe (x : Reg)
  /-- `FX07` -/
  | getDelay (x : Reg)
  /-- `FX0A` -/
  | getKey (x : Reg)
  /-- `FX15` -/
  | setDelay (x : Reg)
  /-- `FX18` -/
  | setSound (x : Reg)
  /-- `FX1E` -/
  | addIndex (x : Reg)
  /-- `FX29` -/
  | indexCharacter (x : Reg)
  /-- `FX33` -/
  | setBcd (x : Reg)
  /-- `FX55` -/
  | regStore (x : Reg)
  /-- `FX65` -/
  | regLoad (x : Reg)
deriving DecidableEq, Repr

end Sys2Proof
end

