-- ==== Sys2Proof/WellFormed.lean ====
section
/-!
DEFINITION. The checks on what is handed to the machine: instructions, parameters and program images.
-/

namespace Sys2Proof

/-- Well-formedness of an instruction: every term is well formed. "There is no operand value that makes a matched
pattern illegal" (30_encoding.md R77), and the widths of the fields are carried by their types. -/
def Instr.wf : Instr → Bool
  | .clearScreen | .ret => true
  | .jump _ | .call _ | .setIndex _ | .jumpV0 _ => true
  | .skipEqIm _ _ | .skipNeIm _ _ | .setIm _ _ | .addIm _ _ | .randAnd _ _ => true
  | .skipEq _ _ | .skipNe _ _ | .set _ _ | .or _ _ | .and _ _ | .xor _ _ | .add _ _ | .sub _ _
  | .shr _ _ | .subOpp _ _ | .shl _ _ => true
  | .draw _ _ _ => true
  | .skipKeyEq _ | .skipKeyNe _ | .getDelay _ | .getKey _ | .setDelay _ | .setSound _ | .addIndex _
  | .indexCharacter _ | .setBcd _ | .regStore _ | .regLoad _ => true

/-- STACK_DEPTH is "any integer >= 1, or `unbounded`" (00_scope.md R10). -/
def StackDepth.wf : StackDepth → Bool
  | .bounded n => decide (1 ≤ n)
  | .unbounded => true

/-- The legal values of the parameters (00_scope.md R10): a capacity of at least 1, and a font that ends at or below
the program's base, `FONT_BASE + 80 <= 512` (20_memory.md R57). -/
def Params.wf (p : Params) : Bool :=
  p.stackDepth.wf && decide (p.fontBase + 80 ≤ 512)

/-- A program image fits when it has at most PROG_MAX = 3584 bytes (20_memory.md R59, 70_reset_and_hazards.md R214);
any bytes will do. -/
def imageWf (image : List Byte) : Bool :=
  decide (image.length ≤ 3584)

end Sys2Proof
end

