-- ==== Sys2Proof/Decode.lean ====
section
/-!
DEFINITION. The Instruction Decoder, "a pure function from a 16-bit word to an instruction" (spec/30_encoding.md R70
to R79), total on every word; after it the encoder, written from the same table of formats (R72, R74); and the table
itself as rows of mask and match.
-/

namespace Sys2Proof

/-! ## Fields of an instruction word (R71) -/

/-- `op`, `w[15:12]`: the family selector. -/
def fieldOp (w : Word) : BitVec 4 := w.extractLsb' 12 4

/-- `X`, `w[11:8]`: the first register index. -/
def fieldX (w : Word) : Reg := (w.extractLsb' 8 4).toFin

/-- `Y`, `w[7:4]`: the second register index. -/
def fieldY (w : Word) : Reg := (w.extractLsb' 4 4).toFin

/-- `N`, `w[3:0]`: the 4-bit immediate or the trailing-nibble sub-opcode. -/
def fieldN (w : Word) : BitVec 4 := w.extractLsb' 0 4

/-- `NN`, `w[7:0]`: the 8-bit immediate or the low-byte sub-opcode. -/
def fieldNN (w : Word) : Byte := w.extractLsb' 0 8

/-- `NNN`, `w[11:0]`: the 12-bit immediate. -/
def fieldNNN (w : Word) : BitVec 12 := w.extractLsb' 0 12

/-- A register index as the 4 bits of its field. -/
def regBits (r : Reg) : BitVec 4 := BitVec.ofFin r

/-- The register field inside a 12-bit immediate, `NNN[11:8]`, which JumpV0 uses under its quirk (R73). -/
def immediateReg (nnn : BitVec 12) : Reg := (nnn.extractLsb' 8 4).toFin

/-! ## Decoding -/

/-- Why bytes are not an instruction. -/
inductive DecodeError where
  /-- The word matches no pattern of R74 (R78). -/
  | unknownInstruction (w : Word)
  /-- Fewer than two bytes: no word. Arises for `decodeBytes` alone; the machine always decodes a whole word. -/
  | truncated
deriving DecidableEq, Repr

/-- Family 0: only the two fixed words (R76). -/
def decodeFixed (w : Word) : Except DecodeError Instr :=
  if w = 0x00E0#16 then .ok .clearScreen
  else if w = 0x00EE#16 then .ok .ret
  else .error (.unknownInstruction w)

/-- Family 8, keyed by the trailing nibble (R76). -/
def decodeArith (w : Word) : Except DecodeError Instr :=
  match (fieldN w).toNat with
  | 0x0 => .ok (.set (fieldX w) (fieldY w))
  | 0x1 => .ok (.or (fieldX w) (fieldY w))
  | 0x2 => .ok (.and (fieldX w) (fieldY w))
  | 0x3 => .ok (.xor (fieldX w) (fieldY w))
  | 0x4 => .ok (.add (fieldX w) (fieldY w))
  | 0x5 => .ok (.sub (fieldX w) (fieldY w))
  | 0x6 => .ok (.shr (fieldX w) (fieldY w))
  | 0x7 => .ok (.subOpp (fieldX w) (fieldY w))
  | 0xE => .ok (.shl (fieldX w) (fieldY w))
  | _ => .error (.unknownInstruction w)

/-- Family E, keyed by the low byte (R76). -/
def decodeKey (w : Word) : Except DecodeError Instr :=
  if fieldNN w = 0x9E#8 then .ok (.skipKeyEq (fieldX w))
  else if fieldNN w = 0xA1#8 then .ok (.skipKeyNe (fieldX w))
  else .error (.unknownInstruction w)

/-- Family F, keyed by the low byte (R76). -/
def decodeMisc (w : Word) : Except DecodeError Instr :=
  if fieldNN w = 0x07#8 then .ok (.getDelay (fieldX w))
  else if fieldNN w = 0x0A#8 then .ok (.getKey (fieldX w))
  else if fieldNN w = 0x15#8 then .ok (.setDelay (fieldX w))
  else if fieldNN w = 0x18#8 then .ok (.setSound (fieldX w))
  else if fieldNN w = 0x1E#8 then .ok (.addIndex (fieldX w))
  else if fieldNN w = 0x29#8 then .ok (.indexCharacter (fieldX w))
  else if fieldNN w = 0x33#8 then .ok (.setBcd (fieldX w))
  else if fieldNN w = 0x55#8 then .ok (.regStore (fieldX w))
  else if fieldNN w = 0x65#8 then .ok (.regLoad (fieldX w))
  else .error (.unknownInstruction w)

/-- `Decode(w)` (R75): total on all 65536 words; a word that matches no pattern is rejected by name, carrying the
word. -/
def decode (w : Word) : Except DecodeError Instr :=
  match (fieldOp w).toNat with
  | 0x0 => decodeFixed w
  | 0x1 => .ok (.jump (fieldNNN w))
  | 0x2 => .ok (.call (fieldNNN w))
  | 0x3 => .ok (.skipEqIm (fieldX w) (fieldNN w))
  | 0x4 => .ok (.skipNeIm (fieldX w) (fieldNN w))
  | 0x5 => if fieldN w = 0#4 then .ok (.skipEq (fieldX w) (fieldY w)) else .error (.unknownInstruction w)
  | 0x6 => .ok (.setIm (fieldX w) (fieldNN w))
  | 0x7 => .ok (.addIm (fieldX w) (fieldNN w))
  | 0x8 => decodeArith w
  | 0x9 => if fieldN w = 0#4 then .ok (.skipNe (fieldX w) (fieldY w)) else .error (.unknownInstruction w)
  | 0xA => .ok (.setIndex (fieldNNN w))
  | 0xB => .ok (.jumpV0 (fieldNNN w))
  | 0xC => .ok (.randAnd (fieldX w) (fieldNN w))
  | 0xD => .ok (.draw (fieldX w) (fieldY w) (fieldN w))
  | 0xE => decodeKey w
  | 0xF => decodeMisc w
  | _ => .error (.unknownInstruction w)

/-- Two bytes as they lie in memory, the lower address first, make one word: the byte at the lower address is the
high byte (20_memory.md R53, R55). -/
def wordOfBytes (hi lo : Byte) : Word := hi ++ lo

/-- The high byte of a word, stored at the lower address (20_memory.md R55). -/
def highByte (w : Word) : Byte := w.extractLsb' 8 8

/-- The low byte of a word, stored at the higher address (20_memory.md R55). -/
def lowByte (w : Word) : Byte := w.extractLsb' 0 8

/-- Decode the first instruction of a byte string: the instruction and the bytes after it. -/
def decodeBytes : List Byte → Except DecodeError (Instr × List Byte)
  | hi :: lo :: rest =>
    match decode (wordOfBytes hi lo) with
    | .ok i => .ok (i, rest)
    | .error e => .error e
  | _ => .error .truncated

/-- The word that an opcode-table row's bits make: bit 0 is the least significant bit of the one word an instruction
has, and the bits above `nbits` are 0. -/
def tableWord (nbits w : Nat) : Word := BitVec.ofNat 16 (w % 2 ^ nbits)

/-- The instruction this decoder reads from an instruction whose bits are `w`, laid out as memory holds it. -/
def decodeTableWord (nbits w : Nat) : Option Instr :=
  match decodeBytes [highByte (tableWord nbits w), lowByte (tableWord nbits w)] with
  | .ok (i, _) => some i
  | .error _ => none

/-! ## Encoding, by format (R72) -/

/-- Format `NNN`: `op NNN`. -/
def encodeNNN (op : BitVec 4) (nnn : BitVec 12) : Word := op ++ nnn

/-- Format `XNN`: `op X NN`. -/
def encodeXNN (op : BitVec 4) (x : Reg) (nn : Byte) : Word := op ++ regBits x ++ nn

/-- Formats `XY` and `XYN`: `op X Y n`, where `n` is the sub-opcode or the 4-bit immediate. -/
def encodeXYN (op : BitVec 4) (x y : Reg) (n : BitVec 4) : Word := op ++ regBits x ++ regBits y ++ n

/-- Format `X`: `op X sub`, with an 8-bit sub-opcode. -/
def encodeX (op : BitVec 4) (x : Reg) (sub : Byte) : Word := op ++ regBits x ++ sub

/-- The word of an instruction (R74). -/
def encode : Instr → Word
  | .clearScreen => 0x00E0#16
  | .ret => 0x00EE#16
  | .jump nnn => encodeNNN 0x1#4 nnn
  | .call nnn => encodeNNN 0x2#4 nnn
  | .skipEqIm x nn => encodeXNN 0x3#4 x nn
  | .skipNeIm x nn => encodeXNN 0x4#4 x nn
  | .skipEq x y => encodeXYN 0x5#4 x y 0x0#4
  | .setIm x nn => encodeXNN 0x6#4 x nn
  | .addIm x nn => encodeXNN 0x7#4 x nn
  | .set x y => encodeXYN 0x8#4 x y 0x0#4
  | .or x y => encodeXYN 0x8#4 x y 0x1#4
  | .and x y => encodeXYN 0x8#4 x y 0x2#4
  | .xor x y => encodeXYN 0x8#4 x y 0x3#4
  | .add x y => encodeXYN 0x8#4 x y 0x4#4
  | .sub x y => encodeXYN 0x8#4 x y 0x5#4
  | .shr x y => encodeXYN 0x8#4 x y 0x6#4
  | .subOpp x y => encodeXYN 0x8#4 x y 0x7#4
  | .shl x y => encodeXYN 0x8#4 x y 0xE#4
  | .skipNe x y => encodeXYN 0x9#4 x y 0x0#4
  | .setIndex nnn => encodeNNN 0xA#4 nnn
  | .jumpV0 nnn => encodeNNN 0xB#4 nnn
  | .randAnd x nn => encodeXNN 0xC#4 x nn
  | .draw x y n => encodeXYN 0xD#4 x y n
  | .skipKeyEq x => encodeX 0xE#4 x 0x9E#8
  | .skipKeyNe x => encodeX 0xE#4 x 0xA1#8
  | .getDelay x => encodeX 0xF#4 x 0x07#8
  | .getKey x => encodeX 0xF#4 x 0x0A#8
  | .setDelay x => encodeX 0xF#4 x 0x15#8
  | .setSound x => encodeX 0xF#4 x 0x18#8
  | .addIndex x => encodeX 0xF#4 x 0x1E#8
  | .indexCharacter x => encodeX 0xF#4 x 0x29#8
  | .setBcd x => encodeX 0xF#4 x 0x33#8
  | .regStore x => encodeX 0xF#4 x 0x55#8
  | .regLoad x => encodeX 0xF#4 x 0x65#8

/-- The two bytes of an instruction in memory order (20_memory.md R55). -/
def encodeBytes (i : Instr) : List Byte := [highByte (encode i), lowByte (encode i)]

/-! ## The table of R74 -/

/-- One row of R74's table: "A word `w` matches a row when `w & mask == match`." -/
structure OpcodeRow where
  pattern : String
  mask : Word
  bits : Word
deriving DecidableEq, Repr

/-- Whether a word matches a row. -/
def OpcodeRow.matches (r : OpcodeRow) (w : Word) : Bool := decide (w &&& r.mask = r.bits)

/-- Rows 1 to 22 but for family 8. -/
def opcodeRowsPlain : List OpcodeRow :=
  [⟨"00E0", 0xFFFF#16, 0x00E0#16⟩, ⟨"00EE", 0xFFFF#16, 0x00EE#16⟩, ⟨"1NNN", 0xF000#16, 0x1000#16⟩,
   ⟨"2NNN", 0xF000#16, 0x2000#16⟩, ⟨"3XNN", 0xF000#16, 0x3000#16⟩, ⟨"4XNN", 0xF000#16, 0x4000#16⟩,
   ⟨"5XY0", 0xF00F#16, 0x5000#16⟩, ⟨"6XNN", 0xF000#16, 0x6000#16⟩, ⟨"7XNN", 0xF000#16, 0x7000#16⟩,
   ⟨"9XY0", 0xF00F#16, 0x9000#16⟩, ⟨"ANNN", 0xF000#16, 0xA000#16⟩, ⟨"BNNN", 0xF000#16, 0xB000#16⟩,
   ⟨"CXNN", 0xF000#16, 0xC000#16⟩, ⟨"DXYN", 0xF000#16, 0xD000#16⟩]

/-- Family 8. -/
def opcodeRowsArith : List OpcodeRow :=
  [⟨"8XY0", 0xF00F#16, 0x8000#16⟩, ⟨"8XY1", 0xF00F#16, 0x8001#16⟩, ⟨"8XY2", 0xF00F#16, 0x8002#16⟩,
   ⟨"8XY3", 0xF00F#16, 0x8003#16⟩, ⟨"8XY4", 0xF00F#16, 0x8004#16⟩, ⟨"8XY5", 0xF00F#16, 0x8005#16⟩,
   ⟨"8XY6", 0xF00F#16, 0x8006#16⟩, ⟨"8XY7", 0xF00F#16, 0x8007#16⟩, ⟨"8XYE", 0xF00F#16, 0x800E#16⟩]

/-- Families E and F. -/
def opcodeRowsKeyMisc : List OpcodeRow :=
  [⟨"EX9E", 0xF0FF#16, 0xE09E#16⟩, ⟨"EXA1", 0xF0FF#16, 0xE0A1#16⟩, ⟨"FX07", 0xF0FF#16, 0xF007#16⟩,
   ⟨"FX0A", 0xF0FF#16, 0xF00A#16⟩, ⟨"FX15", 0xF0FF#16, 0xF015#16⟩, ⟨"FX18", 0xF0FF#16, 0xF018#16⟩,
   ⟨"FX1E", 0xF0FF#16, 0xF01E#16⟩, ⟨"FX29", 0xF0FF#16, 0xF029#16⟩, ⟨"FX33", 0xF0FF#16, 0xF033#16⟩,
   ⟨"FX55", 0xF0FF#16, 0xF055#16⟩, ⟨"FX65", 0xF0FF#16, 0xF065#16⟩]

/-- The 34 rows. -/
def opcodeRows : List OpcodeRow := opcodeRowsPlain ++ opcodeRowsArith ++ opcodeRowsKeyMisc

end Sys2Proof
end

