-- ==== Sys2Proof/Machine/Defaults.lean ====
section
/-!
DEFINITION. The values that `State.reset` gives to what the environment presents: the parameters at the spec's defaults
(00_scope.md R10, 20_memory.md R58; log 5) and a configuration record, for which the spec gives no default (log 4).
-/

namespace Sys2Proof.Machine

/-- Glyphs 0 to 7 of the default FONT_DATA (20_memory.md R58). -/
def fontGlyphs0to7 : List Byte :=
  [0xF0#8, 0x90#8, 0x90#8, 0x90#8, 0xF0#8,
   0x20#8, 0x60#8, 0x20#8, 0x20#8, 0x70#8,
   0xF0#8, 0x10#8, 0xF0#8, 0x80#8, 0xF0#8,
   0xF0#8, 0x10#8, 0xF0#8, 0x10#8, 0xF0#8,
   0x90#8, 0x90#8, 0xF0#8, 0x10#8, 0x10#8,
   0xF0#8, 0x80#8, 0xF0#8, 0x10#8, 0xF0#8,
   0xF0#8, 0x80#8, 0xF0#8, 0x90#8, 0xF0#8,
   0xF0#8, 0x10#8, 0x20#8, 0x40#8, 0x40#8]

/-- Glyphs 8 to F of the default FONT_DATA (20_memory.md R58). -/
def fontGlyphs8toF : List Byte :=
  [0xF0#8, 0x90#8, 0xF0#8, 0x90#8, 0xF0#8,
   0xF0#8, 0x90#8, 0xF0#8, 0x10#8, 0xF0#8,
   0xF0#8, 0x90#8, 0xF0#8, 0x90#8, 0x90#8,
   0xE0#8, 0x90#8, 0xE0#8, 0x90#8, 0xE0#8,
   0xF0#8, 0x80#8, 0x80#8, 0x80#8, 0xF0#8,
   0xE0#8, 0x90#8, 0x90#8, 0x90#8, 0xE0#8,
   0xF0#8, 0x80#8, 0xF0#8, 0x80#8, 0xF0#8,
   0xF0#8, 0x80#8, 0xF0#8, 0x80#8, 0x80#8]

/-- The default FONT_DATA: "the customary CHIP-8 hexadecimal font" (20_memory.md R58). -/
def defaultFontData : Vector Byte 80 := ⟨⟨fontGlyphs0to7 ++ fontGlyphs8toF⟩, rfl⟩

/-- The parameters at the spec's defaults (00_scope.md R10). -/
def defaultParams : Params where
  stackDepth := .bounded 16
  fontBase := 0x050
  fontData := defaultFontData
  indexOverflowClears := false

/-- The configuration record in `State.reset`: DESIGN CHOICE, all straps 0 and all numbers 0; the spec gives no default
(00_scope.md R9; log 4, unsafe). -/
def defaultCfg : Cfg where
  oldShiftBehavior := false
  newJumpBehavior := false
  oldStoreLoadBehavior := false
  indexOverflowFlag := false
  instructionsPerSecond := 0
  timerPeriodMs := 0
  displayScale := 0
  volume := 0

end Sys2Proof.Machine
end

