-- ==== Sys2Proof/Machine/Framebuffer.lean ====
section
/-!
DEFINITION. The Framebuffer Model (spec/10_state.md R34, 43_display.md R161, R162): the 64 x 32 grid of boolean pixels
and the XOR drawing algorithm with clipping and collision. `fb[r][c]` is row `r` (0 at the top), column `c` (0 at the
left).
-/

namespace Sys2Proof.Machine

/-- "a grid of boolean pixels, 64 columns x 32 rows" (10_state.md R34), as 32 rows of 64 pixels. -/
abbrev Frame := Vector (Vector Bool 64) 32

/-- Every pixel false: the frame after reset and after ClearScreen. -/
def Frame.blank : Frame := Vector.replicate 32 (Vector.replicate 64 false)

/-- `fb[r][c]`; false outside the grid, where there is no pixel. -/
def Frame.get (f : Frame) (r c : Nat) : Bool :=
  if h : r < 32 ∧ c < 64 then (f[r]'h.1)[c]'h.2 else false

/-- `fb[r][c] <- fb[r][c] ^ 1`; nothing outside the grid. -/
def Frame.toggle (f : Frame) (r c : Nat) : Frame :=
  if h : r < 32 ∧ c < 64 then f.set r ((f[r]'h.1).set c (!(f[r]'h.1)[c]'h.2) h.2) h.1 else f

/-- The frame whose pixels are `px row column`. -/
def Frame.ofFun (px : Nat → Nat → Bool) : Frame :=
  Vector.ofFn fun r : Fin 32 => Vector.ofFn fun c : Fin 64 => px r c

/-- One sprite bit at row `y`, column `xx`, with the collision flag so far (R161): a bit beyond row 31 or column 63 is
clipped, a 0 bit does nothing, a 1 bit toggles the pixel and collides when it was set. -/
def drawPixel (y xx : Nat) (bit : Bool) (acc : Frame × Bool) : Frame × Bool :=
  if 31 < y then acc
  else if 63 < xx then acc
  else if bit then (acc.1.toggle y xx, acc.2 || acc.1.get y xx)
  else acc

/-- The first `n` columns of one sprite row, left to right: column offset `c` shows bit `7 - c`, so bit 7 is the leftmost
(R162 (b)). -/
def drawColumns (x0 y : Nat) (b : Byte) : Nat → Frame × Bool → Frame × Bool
  | 0, acc => acc
  | n + 1, acc => drawPixel y (x0 + n) (b.getLsbD (7 - n)) (drawColumns x0 y b n acc)

/-- One sprite row: 8 columns. -/
def drawRow (x0 y : Nat) (b : Byte) (acc : Frame × Bool) : Frame × Bool :=
  drawColumns x0 y b 8 acc

/-- The sprite's rows from row `y` downward (R161). -/
def drawRows (x0 : Nat) : Nat → List Byte → Frame × Bool → Frame × Bool
  | _, [], acc => acc
  | y, b :: rest, acc => drawRows x0 (y + 1) rest (drawRow x0 y b acc)

end Sys2Proof.Machine
end

