-- ==== Sys2Proof/Machine/Memory.lean ====
section
/-!
DEFINITION. Addressable Memory as data (spec/20_memory.md R50 to R60): 4096 byte cells, held as a list of
(address, byte) pairs in one canonical form: addresses strictly rising and below 4096, and no entry equal to what an
unlisted address reads as. An unlisted address reads as its content after reset (R56). The bounds check of an access
is in Ops.lean.
-/

namespace Sys2Proof.Machine

/-- What an address that is not listed reads as: the reset content of the cell, the font table at FONT_BASE to
FONT_BASE + 79 and zero elsewhere (20_memory.md R56, 70_reset_and_hazards.md R211). -/
def resetByte (p : Params) (a : Nat) : Byte :=
  if h : p.fontBase ≤ a ∧ a < p.fontBase + 80 then p.fontData[a - p.fontBase]'(by omega) else 0#8

/-- The byte held at an address. -/
def Memory.get (p : Params) : List Host.Cell → Nat → Byte
  | [], a => resetByte p a
  | (k, v) :: rest, a => if a = k then v else Memory.get p rest a

/-- Store a byte, keeping the canonical form: storing what the unlisted address reads as removes the entry. -/
def Memory.set (p : Params) : List Host.Cell → Nat → Byte → List Host.Cell
  | [], a, b => if b = resetByte p a then [] else [(a, b)]
  | (k, v) :: rest, a, b =>
    if a < k then
      if b = resetByte p a then (k, v) :: rest else (a, b) :: (k, v) :: rest
    else if a = k then
      if b = resetByte p a then rest else (a, b) :: rest
    else (k, v) :: Memory.set p rest a b

/-- Store bytes at ascending addresses. -/
def Memory.setBytes (p : Params) (m : List Host.Cell) : Nat → List Byte → List Host.Cell
  | _, [] => m
  | a, b :: rest => Memory.setBytes p (Memory.set p m a b) (a + 1) rest

/-- The memory of `n` cells from address `lo` on whose contents are `f`, in canonical form. -/
def Memory.fillFrom (p : Params) (f : Nat → Byte) : Nat → Nat → List Host.Cell
  | _, 0 => []
  | lo, n + 1 =>
    if f lo = resetByte p lo then Memory.fillFrom p f (lo + 1) n
    else (lo, f lo) :: Memory.fillFrom p f (lo + 1) n

/-- The canonical form from address `lo` on. -/
def Memory.wfFrom (p : Params) : Nat → List Host.Cell → Bool
  | _, [] => true
  | lo, (k, v) :: rest =>
    decide (lo ≤ k) && decide (k < 4096) && decide (v ≠ resetByte p k) && Memory.wfFrom p (k + 1) rest

/-- The canonical form: strictly rising addresses below 4096, none listed with its reset content. -/
def Memory.wf (p : Params) (m : List Host.Cell) : Bool := Memory.wfFrom p 0 m

end Sys2Proof.Machine
end

