-- ==== Sys2Proof/Machine/State.lean ====
section
/-!
DEFINITION. The state of the chirp-8 CORE as plain data (spec/10_state.md R20 to R49), the fault kinds (60_exceptions.md
R193), the refusals, and the state after reset (10_state.md R48, 70_reset_and_hazards.md R210).
-/

namespace Sys2Proof.Machine

/-- The fault kinds with the information each records (60_exceptions.md R180 to R184, R193). A fault is TAKEN: it is
recorded in `State.fault` and the machine goes to a next state with `run` = Faulted (R185, log 7). `step` never
answers with `Host.Outcome.fault`. -/
inductive Fault where
  /-- Code 1: an access at an address of 4096 or more. Raised by the fetch, Draw, SetBcd, RegStore, RegLoad (R180). As
  the spec says: safe. -/
  | outOfBoundsAccess (addr : Nat)
  /-- Code 2: the decoder found no pattern. Raised by the decode step (R181). As the spec says: safe. -/
  | unknownInstruction (w : Word)
  /-- Code 3: Return on an empty stack, with the address of the Return (R182). As the spec says: safe. -/
  | stackUnderflow (addr : Word)
  /-- Code 4: Call on a full stack, with the address of the Call (R183). The spec's own kind: safe. -/
  | stackOverflow (addr : Word)
  /-- Code 5: a collaborator failed before the loop started, with the device's name. Raised by nothing in the CORE
  (R184); listed so that the kinds of R193 are complete: safe (log 21). -/
  | deviceInitFailure (device : String)
deriving DecidableEq, Repr

/-- Why the model gives no answer. -/
inductive Refusal where
  /-- An instruction that has no meaning yet. Raised by no arm of `exec`: every instruction has its meaning. Safe. -/
  | notModelled (mnemonic : String)
  /-- Raised by `State.load`: a program image longer than 3584 bytes, "a model refuses the launch"
  (70_reset_and_hazards.md R214). Safe. -/
  | imageTooLarge (length : Nat)
  /-- Raised by `State.load`: parameters outside the legal values of 00_scope.md R10. Safe. -/
  | illegalParameters
deriving DecidableEq, Repr

/-- `run`, the run status (10_state.md R37). -/
inductive RunStatus where
  | running
  | halted
  | faulted
deriving DecidableEq, Repr

/-- The input sample of one cycle (10_state.md R40 to R44). -/
structure Inputs where
  /-- `in.keys`: bit k is 1 when key k is held (R41). -/
  keys : BitVec 16
  /-- `in.quit` (R42). -/
  quit : Bool
  /-- `in.rand` (R43). -/
  rand : Byte
  /-- `in.ticks`: timer periods elapsed and not yet applied (R44). -/
  ticks : Nat
deriving DecidableEq, Repr

/-- The `n`-th sample that nothing in State lists: a free value in each signal, "under no law except the stated type"
(R40). The first cycle after reset takes number 0, "like any other" cycle (70_reset_and_hazards.md R212; log 2, log 3). -/
def Inputs.free (n : Nat) : Inputs := ⟨Config.freeKeys n, Config.freeQuit n, Config.freeRand n, Config.freeTicks n⟩

/-- Everything the spec gives the machine (10_state.md), and what the model adds to hold the environment's choices. -/
structure State where
  /-- `x[0]` to `x[15]` (R20); `x[15]` is VF, the flag register (R21). -/
  regs : Vector Byte 16
  /-- `I`, the index register (R23). -/
  index : Word
  /-- The program counter (R24). -/
  pc : Word
  /-- The call stack of return addresses, top first (R27). -/
  stack : List Word
  /-- `DT`, the delay timer (R32). -/
  dt : Byte
  /-- `ST`, the sound timer (R33). -/
  st : Byte
  /-- The framebuffer (R34). -/
  fb : Frame
  /-- `fb_prev`, the previous frame (R35). -/
  fbPrev : Frame
  /-- Addressable memory in canonical form (20_memory.md R50; Memory.lean). -/
  mem : List Host.Cell
  /-- The run status (R37). -/
  run : RunStatus
  /-- The fault record (R38); none but after a fault. -/
  fault : Option Fault
  /-- The configuration record (R36). -/
  cfg : Cfg
  /-- The named parameters (00_scope.md R10). -/
  params : Params
  /-- The input sample of the cycle about to run (R40). -/
  inp : Inputs
  /-- MODEL's own: the samples of the cycles after it, first one first (log 1). -/
  env : List Inputs
  /-- MODEL's own: the counter free values are applied to (log 2). -/
  draws : Nat
  /-- MODEL's own: the present events so far, newest first, each the pair (`fb`, `fb_prev`) (R45; log 10). -/
  presented : List (Frame × Frame)
deriving DecidableEq, Repr

/-- The state after reset for a configuration record and parameters, with an empty program image (10_state.md R48,
70_reset_and_hazards.md R210). Memory lists nothing: every cell holds its reset content. The first cycle's sample is free
(R40, 70_reset_and_hazards.md R212), and it has used up free value number 0. -/
def State.atReset (c : Cfg) (p : Params) : State where
  regs := Vector.replicate 16 0#8
  index := 0#16
  pc := 512#16
  stack := []
  dt := 0#8
  st := 0#8
  fb := Frame.blank
  fbPrev := Frame.blank
  mem := []
  run := .running
  fault := none
  cfg := c
  params := p
  inp := Inputs.free 0
  env := []
  draws := 1
  presented := []

/-- The machine right after reset, with the spec's default parameters (log 5) and every strap 0 (log 4). -/
def State.reset : State := State.atReset defaultCfg defaultParams

end Sys2Proof.Machine
end

