-- ==== Sys2Proof/Machine/Ops.lean ====
section
/-!
DEFINITION. The named operations every meaning is written over: register access, `MemRead` and `MemWrite`
(spec/20_memory.md), the call stack (10_state.md R30, R31), the present event (R45), taking a fault (60_exceptions.md
R185), timer decay (R195), and the parts of the machine cycle (00_scope.md R14) that `step` calls.
-/

namespace Sys2Proof.Machine

/-! ## Registers -/

/-- `x[r]` (00_scope.md R12). No register access can fault (10_state.md R22). -/
def State.reg (s : State) (r : Reg) : Byte := s.regs[r.val]

/-- `x[r] <- v`. No register is hardwired (10_state.md R20). -/
def State.setReg (s : State) (r : Reg) (v : Byte) : State := { s with regs := s.regs.set r.val v }

/-- `I <- v`. -/
def State.setIndex (s : State) (v : Word) : State := { s with index := v }

/-- `pc <- v`. -/
def State.setPc (s : State) (v : Word) : State := { s with pc := v }

/-- `stack <- v`. -/
def State.setStack (s : State) (v : List Word) : State := { s with stack := v }

/-- `DT <- v`. -/
def State.setDt (s : State) (v : Byte) : State := { s with dt := v }

/-- `ST <- v`. -/
def State.setSt (s : State) (v : Byte) : State := { s with st := v }

/-- `fb <- v`. -/
def State.setFb (s : State) (v : Frame) : State := { s with fb := v }

/-- `mem <- v`. -/
def State.setMem (s : State) (v : List Host.Cell) : State := { s with mem := v }

/-- The byte memory holds at an address, whatever the address: how claims read memory. -/
def State.byteAt (s : State) (a : Nat) : Byte := Memory.get s.params s.mem a

/-- `FLAG_REG` = 15, the flag register VF (00_scope.md R8, 10_state.md R21). -/
def flagReg : Reg := 15

/-- `x[15] <- 1 if b else 0`. -/
def State.setFlag (s : State) (b : Bool) : State := s.setReg flagReg (if b then 1#8 else 0#8)

/-- `sp`, the number of entries on the call stack (10_state.md R27). -/
def State.sp (s : State) : Nat := s.stack.length

/-! ## Memory -/

/-- `MemRead(addr, 1)` (20_memory.md R52). -/
def memRead1 (s : State) (addr : Nat) : Except Fault Byte :=
  if 4096 ≤ addr then .error (.outOfBoundsAccess addr) else .ok (s.byteAt addr)

/-- `MemRead(addr, 2)`, big-endian (20_memory.md R53): the fault carries the first address out of range. -/
def memRead2 (s : State) (addr : Nat) : Except Fault Word :=
  if 4096 ≤ addr then .error (.outOfBoundsAccess addr)
  else if 4096 ≤ addr + 1 then .error (.outOfBoundsAccess (addr + 1))
  else .ok (wordOfBytes (s.byteAt addr) (s.byteAt (addr + 1)))

/-- `MemWrite(addr, 1, v)` (20_memory.md R54). -/
def memWrite1 (s : State) (addr : Nat) (v : Byte) : Except Fault State :=
  if 4096 ≤ addr then .error (.outOfBoundsAccess addr)
  else .ok (s.setMem (Memory.set s.params s.mem addr v))

/-- Read `n` bytes at ascending addresses from `addr` on (20_memory.md R62); the fault of the first one out of range. -/
def loadBytes (s : State) : Nat → Nat → Except Fault (List Byte)
  | _, 0 => .ok []
  | addr, n + 1 =>
    match memRead1 s addr with
    | .error f => .error f
    | .ok b =>
      match loadBytes s (addr + 1) n with
      | .error f => .error f
      | .ok bs => .ok (b :: bs)

/-- Write bytes at ascending addresses from `addr` on (20_memory.md R62); the fault of the first one out of range. -/
def storeBytes : State → Nat → List Byte → Except Fault State
  | s, _, [] => .ok s
  | s, addr, b :: bs =>
    match memWrite1 s addr b with
    | .error f => .error f
    | .ok t => storeBytes t (addr + 1) bs

/-! ## Call stack -/

/-- Whether the stack already holds STACK_DEPTH entries (10_state.md R28, R30). -/
def stackFull (s : State) : Bool :=
  match s.params.stackDepth with
  | .unbounded => false
  | .bounded n => decide (n ≤ s.stack.length)

/-- The address of the instruction being executed: `pc` already points past it (10_state.md R25). -/
def currentAddress (s : State) : Word := s.pc - 2#16

/-- `Push(v)` (10_state.md R30); the fault records the address of the Call (60_exceptions.md R183). -/
def push (s : State) (v : Word) : Except Fault State :=
  if stackFull s then .error (.stackOverflow (currentAddress s)) else .ok (s.setStack (v :: s.stack))

/-- `Pop()` (10_state.md R31); the fault records the address of the Return (60_exceptions.md R182). -/
def pop (s : State) : Except Fault (Word × State) :=
  match s.stack with
  | [] => .error (.stackUnderflow (currentAddress s))
  | v :: rest => .ok (v, s.setStack rest)

/-! ## Present -/

/-- The present event (10_state.md R45): hand (`fb`, `fb_prev`) to the renderer, then `fb_prev <- fb`. -/
def present (s : State) : State := { s with presented := (s.fb, s.fbPrev) :: s.presented, fbPrev := s.fb }

/-! ## Taking a fault -/

/-- The code of a fault kind (60_exceptions.md R193). -/
def Fault.code : Fault → Nat
  | .outOfBoundsAccess _ => 1
  | .unknownInstruction _ => 2
  | .stackUnderflow _ => 3
  | .stackOverflow _ => 4
  | .deviceInitFailure _ => 5

/-- The stack a fault leaves: any entries, no more than the capacity (10_state.md R27; log 8). -/
def boundStack (d : StackDepth) (l : List Word) : List Word :=
  match d with
  | .unbounded => l
  | .bounded n => l.take n

/-- Fault entry (60_exceptions.md R185): `run <- Faulted`, `fault <- (code, info)`, and "every part of the state other
than `run` and `fault` is unspecified (any value)": each is a free value (log 8). `cfg` and `params` are constant for the
run (00_scope.md R9, R10), and the environment's samples and the events already handed over are no part of the CORE. -/
def takeFault (f : Fault) (s : State) : State where
  regs := Vector.ofFn fun r : Fin 16 => Config.postFaultReg s.draws r
  index := Config.postFaultIndex s.draws
  pc := Config.postFaultPc s.draws
  stack := boundStack s.params.stackDepth (Config.postFaultStack s.draws)
  dt := Config.postFaultDelay s.draws
  st := Config.postFaultSound s.draws
  fb := Frame.ofFun (Config.postFaultPixel s.draws)
  fbPrev := Frame.ofFun (Config.postFaultPrevPixel s.draws)
  mem := Memory.fillFrom s.params (Config.postFaultByte s.draws) 0 4096
  run := .faulted
  fault := some f
  cfg := s.cfg
  params := s.params
  inp := s.inp
  env := s.env
  draws := s.draws + 1
  presented := s.presented

/-- The outcome of an instruction that may raise a fault: its own next state, or the fault taken. There is no return
from a fault (60_exceptions.md R191). -/
def orTakeFault (s : State) : Except Fault State → Host.Outcome State Fault Refusal
  | .ok t => .next t
  | .error f => .next (takeFault f s)

/-! ## The machine cycle (00_scope.md R14) -/

/-- Step 1 with `in.quit` = 1: `run <- Halted`, and the cycle does nothing else (60_exceptions.md R187). -/
def haltOnQuit (s : State) : State := { s with run := .halted }

/-- Steps 2 to 4: fetch, `pc <- pc + 2`, decode. A word the decoder rejects raises UnknownInstruction (R181). -/
def fetchDecode (s : State) : Except Fault (Instr × State) :=
  match memRead2 s s.pc.toNat with
  | .error f => .error f
  | .ok w =>
    match decode w with
    | .error _ => .error (.unknownInstruction w)
    | .ok i => .ok (i, s.setPc (s.pc + 2#16))

/-- A timer less `k`, "never below 0" (60_exceptions.md R195). -/
def decayed (t : Byte) (k : Nat) : Byte := BitVec.ofNat 8 (t.toNat - k)

/-- `TimerDecay(k)` (60_exceptions.md R195): both timers by the same `k`, then the frame is presented if `k > 0`. -/
def timerDecay (k : Nat) (s : State) : State :=
  let t := (s.setDt (decayed s.dt k)).setSt (decayed s.st k)
  if 0 < k then present t else t

/-- The sample of the next cycle: the environment's next one, or free values when the list is at its end (10_state.md
R40; log 1). -/
def sampleNext (s : State) : State :=
  match s.env with
  | i :: rest => { s with inp := i, env := rest }
  | [] => { s with inp := Inputs.free s.draws, draws := s.draws + 1 }

/-- Step 6 after an instruction that completed: timer decay with this cycle's ticks, then the cycle is over. -/
def endCycle (s : State) : State := sampleNext (timerDecay s.inp.ticks s)

/-- What follows the execute step: the end of the cycle, unless the instruction took a fault: then "the rest of the
cycle (remaining execute actions, timer decay, present) is not performed" (60_exceptions.md R185). -/
def finishCycle : Host.Outcome State Fault Refusal → Host.Outcome State Fault Refusal
  | .next t => if t.run = .faulted then .next t else .next (endCycle t)
  | .fault f => .fault f
  | .refused r => .refused r

/-- `Cycle(in)` (00_scope.md R14) over the execute step `execute`. A run that has ended changes nothing (60_exceptions.md
R186). -/
def cycle (execute : Instr → State → Host.Outcome State Fault Refusal) (s : State) : Host.Outcome State Fault Refusal :=
  match s.run with
  | .halted => .next s
  | .faulted => .next s
  | .running =>
    if s.inp.quit then .next (haltOnQuit s)
    else
      match fetchDecode s with
      | .error f => .next (takeFault f s)
      | .ok (i, t) => finishCycle (execute i t)

/-! ## Placing a word for the next fetch -/

/-- A program counter a word can be fetched at: the state's own if there are two cells there, else 512. -/
def fetchablePc (pc : Word) : Word := if pc.toNat + 1 < 4096 then pc else 512#16

/-- `s` with word `w` where the next fetch takes it, running, with no quit request: what the next fetch needs and
nothing else (log 18). -/
def placeWord (s : State) (w : Word) : State :=
  { s with
    pc := fetchablePc s.pc,
    mem := Memory.setBytes s.params s.mem (fetchablePc s.pc).toNat [highByte w, lowByte w],
    run := .running,
    fault := none,
    inp := { s.inp with quit := false } }

end Sys2Proof.Machine
end

