-- ==== Sys2Proof/Machine/Operands.lean ====
section
/-!
DEFINITION. The operand forms of the 34 instructions: which register, immediate, address or selector a field stands for,
and the values computed from them without a flag (spec/30_encoding.md R73, files 40 to 44).
-/

namespace Sys2Proof.Machine

/-- A 12-bit immediate zero-extended to 16 bits (30_encoding.md R73). -/
def zext16 (nnn : BitVec 12) : Word := nnn.setWidth 16

/-- An 8-bit register value zero-extended to 16 bits (30_encoding.md R73). -/
def zextByte (b : Byte) : Word := b.setWidth 16

/-- The low nibble of `x[X]`, `x[X][3:0]`: the key selector (44_keys_timers.md R176) and the glyph selector
(42_index_memory.md R143). -/
def lowNibble (b : Byte) : Nat := (b.extractLsb' 0 4).toNat

/-- The value Shr and Shl shift: `x[Y]` under the old-shift quirk, else `x[X]` (41_alu.md R130, R132). -/
def shiftSource (s : State) (x y : Reg) : Byte := if s.cfg.oldShiftBehavior then s.reg y else s.reg x

/-- The register JumpV0 adds: the one indexed by the immediate's high nibble under the quirk, else register 0
(40_control_flow.md R104). -/
def jumpReg (s : State) (nnn : BitVec 12) : Reg := if s.cfg.newJumpBehavior then immediateReg nnn else 0

/-- JumpV0's target, a 16-bit sum that is not reduced modulo 4096 (40_control_flow.md R104). -/
def jumpV0Target (s : State) (nnn : BitVec 12) : Word := zext16 nnn + zextByte (s.reg (jumpReg s nnn))

/-- The address of the glyph of the low nibble: `FONT_BASE + 5 * d` (42_index_memory.md R143). -/
def glyphAddress (s : State) (b : Byte) : Word := BitVec.ofNat 16 (s.params.fontBase + 5 * lowNibble b)

/-- The base address of a memory access: the integer in `I` (42_index_memory.md R140, 20_memory.md R68). -/
def baseAddress (s : State) : Nat := s.index.toNat

/-- Hundreds, tens, ones of a byte, one digit per cell (42_index_memory.md R144). -/
def bcdDigits (v : Byte) : List Byte :=
  [BitVec.ofNat 8 (v.toNat / 100), BitVec.ofNat 8 (v.toNat / 10 % 10), BitVec.ofNat 8 (v.toNat % 10)]

/-- Register number `i` as an index (`i` is at most 15 wherever this is used). -/
def regOf (i : Nat) : Reg := Fin.ofNat 16 i

/-- The contents of `n` registers from number `i` on, ascending. -/
def regValues (s : State) : Nat → Nat → List Byte
  | _, 0 => []
  | i, n + 1 => s.reg (regOf i) :: regValues s (i + 1) n

/-- Write bytes into the registers from number `i` on, ascending. -/
def setRegValues : State → Nat → List Byte → State
  | s, _, [] => s
  | s, i, b :: bs => setRegValues (s.setReg (regOf i) b) (i + 1) bs

/-- The number of bytes RegStore and RegLoad transfer: X + 1 (42_index_memory.md R145, R146). -/
def transferLength (x : Reg) : Nat := x.val + 1

/-- `I` after RegStore or RegLoad: `(I + X + 1) mod 65536` under the old store/load quirk, else unchanged. -/
def advanceIndex (s : State) (x : Reg) : State :=
  if s.cfg.oldStoreLoadBehavior then s.setIndex (s.index + BitVec.ofNat 16 (transferLength x)) else s

/-- The column of a sprite's origin, `x[X] mod 64` (43_display.md R161). -/
def originColumn (s : State) (x : Reg) : Nat := (s.reg x).toNat % 64

/-- The row of a sprite's origin, `x[Y] mod 32` (43_display.md R161). -/
def originRow (s : State) (y : Reg) : Nat := (s.reg y).toNat % 32

/-- Whether key `k` is held in this cycle's sample (10_state.md R41). -/
def keyHeld (s : State) (k : Nat) : Bool := s.inp.keys.getLsbD k

/-- The smallest held key at or above `k` among the `n` keys from `k` on. -/
def lowestHeldFrom (keys : BitVec 16) : Nat → Nat → Option Nat
  | _, 0 => none
  | k, n + 1 => if keys.getLsbD k then some k else lowestHeldFrom keys (k + 1) n

/-- The lowest-indexed held key, if any key is held (44_keys_timers.md R172). -/
def lowestHeld (keys : BitVec 16) : Option Nat := lowestHeldFrom keys 0 16

/-- A skip: `pc <- pc + 2` when the condition holds (40_control_flow.md R109). -/
def skipIf (c : Bool) (s : State) : State := s.setPc (if c then s.pc + 2#16 else s.pc)

/-- `pc` after GetKey: back to the instruction while no key is held (44_keys_timers.md R172). -/
def getKeyPc (s : State) : Word :=
  match lowestHeld s.inp.keys with
  | none => s.pc - 2#16
  | some _ => s.pc

/-- The general registers after GetKey: the lowest held key in `x[X]`, if any key is held (44_keys_timers.md R172). -/
def getKeyRegs (x : Reg) (s : State) : Vector Byte 16 :=
  match lowestHeld s.inp.keys with
  | none => s.regs
  | some k => s.regs.set x.val (BitVec.ofNat 8 k)

end Sys2Proof.Machine
end

