-- ==== Sys2Proof/Machine/Flags.lean ====
section
/-!
DEFINITION. Every flag computation of the hardware: what the seven flag-writing instructions put into `x[15]`
(spec/10_state.md R21), and the order of the two writes (41_alu.md R129).
-/

namespace Sys2Proof.Machine

/-- The carry of an 8-bit addition: 1 when a + b > 255 (41_alu.md R120, R127). -/
def carryOut (a b : Byte) : Bool := decide (255 < a.toNat + b.toNat)

/-- The inverse of the borrow of a - b: 1 when a >= b (41_alu.md R120, R128, R131). -/
def noBorrow (a b : Byte) : Bool := decide (b.toNat ≤ a.toNat)

/-- The bit Shr shifts out, bit 0 of the unshifted value (41_alu.md R130). -/
def shiftedOutRight (v : Byte) : Bool := v.getLsbD 0

/-- The bit Shl shifts out, bit 7 of the unshifted value (41_alu.md R132). -/
def shiftedOutLeft (v : Byte) : Bool := v.getLsbD 7

/-- Whether an index is beyond the address space, `r >= 4096`: a test on the new value, not on a carry
(42_index_memory.md R142). -/
def indexBeyond (r : Word) : Bool := decide (4096 ≤ r.toNat)

/-- The result to `x[X]` first, the flag to `x[15]` last (41_alu.md R129). -/
def writeResultAndFlag (x : Reg) (v : Byte) (flag : Bool) (s : State) : State := (s.setReg x v).setFlag flag

/-- AddIndex's flag for the new index `r`: written only under the quirk; 1 when `r >= 4096`; 0 below only with
INDEX_OVERFLOW_CLEARS (42_index_memory.md R142). -/
def writeIndexFlag (r : Word) (s : State) : State :=
  if s.cfg.indexOverflowFlag then
    if indexBeyond r then s.setFlag true
    else if s.params.indexOverflowClears then s.setFlag false
    else s
  else s

end Sys2Proof.Machine
end

