-- ==== Sys2Proof/Machine/Alu.lean ====
section
/-!
DEFINITION. The ALU instructions (spec/41_alu.md): unsigned 8-bit, modulo 256 (R120). None of them can fault.
-/

namespace Sys2Proof.Machine

/-- SetIm, `6XNN` (R121). -/
def execSetIm (x : Reg) (nn : Byte) (s : State) : Host.Outcome State Fault Refusal :=
  .next (s.setReg x nn)

/-- AddIm, `7XNN` (R122): no flag (R134). -/
def execAddIm (x : Reg) (nn : Byte) (s : State) : Host.Outcome State Fault Refusal :=
  .next (s.setReg x (s.reg x + nn))

/-- Set, `8XY0` (R123). -/
def execSet (x y : Reg) (s : State) : Host.Outcome State Fault Refusal :=
  .next (s.setReg x (s.reg y))

/-- Or, `8XY1` (R124). -/
def execOr (x y : Reg) (s : State) : Host.Outcome State Fault Refusal :=
  .next (s.setReg x (s.reg x ||| s.reg y))

/-- And, `8XY2` (R125). -/
def execAnd (x y : Reg) (s : State) : Host.Outcome State Fault Refusal :=
  .next (s.setReg x (s.reg x &&& s.reg y))

/-- Xor, `8XY3` (R126). -/
def execXor (x y : Reg) (s : State) : Host.Outcome State Fault Refusal :=
  .next (s.setReg x (s.reg x ^^^ s.reg y))

/-- Add, `8XY4` (R127). -/
def execAdd (x y : Reg) (s : State) : Host.Outcome State Fault Refusal :=
  .next (writeResultAndFlag x (s.reg x + s.reg y) (carryOut (s.reg x) (s.reg y)) s)

/-- Sub, `8XY5` (R128). -/
def execSub (x y : Reg) (s : State) : Host.Outcome State Fault Refusal :=
  .next (writeResultAndFlag x (s.reg x - s.reg y) (noBorrow (s.reg x) (s.reg y)) s)

/-- SubOpp, `8XY7` (R131). -/
def execSubOpp (x y : Reg) (s : State) : Host.Outcome State Fault Refusal :=
  .next (writeResultAndFlag x (s.reg y - s.reg x) (noBorrow (s.reg y) (s.reg x)) s)

/-- Shr, `8XY6` (R130). -/
def execShr (x y : Reg) (s : State) : Host.Outcome State Fault Refusal :=
  .next (writeResultAndFlag x (shiftSource s x y >>> 1) (shiftedOutRight (shiftSource s x y)) s)

/-- Shl, `8XYE` (R132). -/
def execShl (x y : Reg) (s : State) : Host.Outcome State Fault Refusal :=
  .next (writeResultAndFlag x (shiftSource s x y <<< 1) (shiftedOutLeft (shiftSource s x y)) s)

/-- RandAnd, `CXNN` (R133): the cycle's random byte ANDed with the immediate. -/
def execRandAnd (x : Reg) (nn : Byte) (s : State) : Host.Outcome State Fault Refusal :=
  .next (s.setReg x (s.inp.rand &&& nn))

end Sys2Proof.Machine
end

