-- ==== Sys2Proof/Machine/Control.lean ====
section
/-!
DEFINITION. Control transfer (spec/40_control_flow.md). `pc` already holds the address of the instruction plus 2.
-/

namespace Sys2Proof.Machine

/-- Return, `00EE` (R101): `pc <- Pop()`. -/
def execRet (s : State) : Host.Outcome State Fault Refusal :=
  orTakeFault s (match pop s with
    | .ok (v, t) => .ok (t.setPc v)
    | .error f => .error f)

/-- Jump, `1NNN` (R102). -/
def execJump (nnn : BitVec 12) (s : State) : Host.Outcome State Fault Refusal :=
  .next (s.setPc (zext16 nnn))

/-- Call, `2NNN` (R103): `Push(pc)`, then `pc <- NNN`. -/
def execCall (nnn : BitVec 12) (s : State) : Host.Outcome State Fault Refusal :=
  orTakeFault s (match push s s.pc with
    | .ok t => .ok (t.setPc (zext16 nnn))
    | .error f => .error f)

/-- JumpV0, `BNNN` (R104). -/
def execJumpV0 (nnn : BitVec 12) (s : State) : Host.Outcome State Fault Refusal :=
  .next (s.setPc (jumpV0Target s nnn))

/-- SkipEqIm, `3XNN` (R105). -/
def execSkipEqIm (x : Reg) (nn : Byte) (s : State) : Host.Outcome State Fault Refusal :=
  .next (skipIf (s.reg x == nn) s)

/-- SkipNeIm, `4XNN` (R106). -/
def execSkipNeIm (x : Reg) (nn : Byte) (s : State) : Host.Outcome State Fault Refusal :=
  .next (skipIf (s.reg x != nn) s)

/-- SkipEq, `5XY0` (R107). -/
def execSkipEq (x y : Reg) (s : State) : Host.Outcome State Fault Refusal :=
  .next (skipIf (s.reg x == s.reg y) s)

/-- SkipNe, `9XY0` (R108). -/
def execSkipNe (x y : Reg) (s : State) : Host.Outcome State Fault Refusal :=
  .next (skipIf (s.reg x != s.reg y) s)

end Sys2Proof.Machine
end

