-- ==== Sys2Proof/Machine/Display.lean ====
section
/-!
DEFINITION. The display instructions (spec/43_display.md).
-/

namespace Sys2Proof.Machine

/-- ClearScreen, `00E0` (R160): every pixel false; no present event. -/
def execClearScreen (s : State) : Host.Outcome State Fault Refusal :=
  .next (s.setFb Frame.blank)

/-- What Draw does once the sprite's bytes are read (R161): toggle, write the collision flag, present. -/
def drawSprite (x y : Reg) (sprite : List Byte) (s : State) : State :=
  let drawn := drawRows (originColumn s x) (originRow s y) sprite (s.fb, false)
  present ((s.setFb drawn.1).setFlag drawn.2)

/-- Draw, `DXYN` (R161): all `N` bytes are read first. -/
def execDraw (x y : Reg) (n : BitVec 4) (s : State) : Host.Outcome State Fault Refusal :=
  orTakeFault s (match loadBytes s (baseAddress s) n.toNat with
    | .ok sprite => .ok (drawSprite x y sprite s)
    | .error f => .error f)

end Sys2Proof.Machine
end

