-- ==== Sys2Proof/Machine/IndexMemory.lean ====
section
/-!
DEFINITION. Index register and memory instructions (spec/42_index_memory.md). The effective address of the i-th byte is
the integer `I + i`, never wrapped (R140).
-/

namespace Sys2Proof.Machine

/-- SetIndex, `ANNN` (R141). -/
def execSetIndex (nnn : BitVec 12) (s : State) : Host.Outcome State Fault Refusal :=
  .next (s.setIndex (zext16 nnn))

/-- AddIndex, `FX1E` (R142): modulo 65536, `x[X]` read before any write. -/
def execAddIndex (x : Reg) (s : State) : Host.Outcome State Fault Refusal :=
  .next (writeIndexFlag (s.index + zextByte (s.reg x)) (s.setIndex (s.index + zextByte (s.reg x))))

/-- IndexCharacter, `FX29` (R143). -/
def execIndexCharacter (x : Reg) (s : State) : Host.Outcome State Fault Refusal :=
  .next (s.setIndex (glyphAddress s (s.reg x)))

/-- SetBcd, `FX33` (R144). -/
def execSetBcd (x : Reg) (s : State) : Host.Outcome State Fault Refusal :=
  orTakeFault s (storeBytes s (baseAddress s) (bcdDigits (s.reg x)))

/-- RegStore, `FX55` (R145): `x[0]` to `x[X]`, then the optional advance of `I`. -/
def execRegStore (x : Reg) (s : State) : Host.Outcome State Fault Refusal :=
  orTakeFault s (match storeBytes s (baseAddress s) (regValues s 0 (transferLength x)) with
    | .ok t => .ok (advanceIndex t x)
    | .error f => .error f)

/-- RegLoad, `FX65` (R146): `x[0]` to `x[X]`, then the optional advance of `I`. -/
def execRegLoad (x : Reg) (s : State) : Host.Outcome State Fault Refusal :=
  orTakeFault s (match loadBytes s (baseAddress s) (transferLength x) with
    | .ok bs => .ok (advanceIndex (setRegValues s 0 bs) x)
    | .error f => .error f)

end Sys2Proof.Machine
end

