-- ==== Sys2Proof/Machine/KeysTimers.lean ====
section
/-!
DEFINITION. Keypad and timer instructions (spec/44_keys_timers.md). `in.keys` is the sample of this cycle.
-/

namespace Sys2Proof.Machine

/-- SkipKeyEq, `EX9E` (R170): skip if the key selected by the low nibble of `x[X]` is held (R176). -/
def execSkipKeyEq (x : Reg) (s : State) : Host.Outcome State Fault Refusal :=
  .next (skipIf (keyHeld s (lowNibble (s.reg x))) s)

/-- SkipKeyNe, `EXA1` (R171): skip if it is not held. -/
def execSkipKeyNe (x : Reg) (s : State) : Host.Outcome State Fault Refusal :=
  .next (skipIf (!keyHeld s (lowNibble (s.reg x))) s)

/-- GetKey, `FX0A` (R172): with no key held, back to this instruction; else the lowest held key. -/
def execGetKey (x : Reg) (s : State) : Host.Outcome State Fault Refusal :=
  .next { s with pc := getKeyPc s, regs := getKeyRegs x s }

/-- GetDelay, `FX07` (R173). -/
def execGetDelay (x : Reg) (s : State) : Host.Outcome State Fault Refusal :=
  .next (s.setReg x s.dt)

/-- SetDelay, `FX15` (R174). -/
def execSetDelay (x : Reg) (s : State) : Host.Outcome State Fault Refusal :=
  .next (s.setDt (s.reg x))

/-- SetSound, `FX18` (R175). -/
def execSetSound (x : Reg) (s : State) : Host.Outcome State Fault Refusal :=
  .next (s.setSt (s.reg x))

end Sys2Proof.Machine
end

