-- ==== Sys2Proof/Machine/Dispatch.lean ====
section
/-!
DEFINITION. The dispatch: one arm per constructor of Instr, each one call of its meaning (spec/00_scope.md R14 step 5).
-/

namespace Sys2Proof.Machine

def exec (i : Instr) (s : State) : Host.Outcome State Fault Refusal :=
  match i with
  | .clearScreen => Sys2Proof.Machine.execClearScreen s
  | .ret => Sys2Proof.Machine.execRet s
  | .jump nnn => Sys2Proof.Machine.execJump nnn s
  | .call nnn => Sys2Proof.Machine.execCall nnn s
  | .skipEqIm x nn => Sys2Proof.Machine.execSkipEqIm x nn s
  | .skipNeIm x nn => Sys2Proof.Machine.execSkipNeIm x nn s
  | .skipEq x y => Sys2Proof.Machine.execSkipEq x y s
  | .setIm x nn => Sys2Proof.Machine.execSetIm x nn s
  | .addIm x nn => Sys2Proof.Machine.execAddIm x nn s
  | .set x y => Sys2Proof.Machine.execSet x y s
  | .or x y => Sys2Proof.Machine.execOr x y s
  | .and x y => Sys2Proof.Machine.execAnd x y s
  | .xor x y => Sys2Proof.Machine.execXor x y s
  | .add x y => Sys2Proof.Machine.execAdd x y s
  | .sub x y => Sys2Proof.Machine.execSub x y s
  | .shr x y => Sys2Proof.Machine.execShr x y s
  | .subOpp x y => Sys2Proof.Machine.execSubOpp x y s
  | .shl x y => Sys2Proof.Machine.execShl x y s
  | .skipNe x y => Sys2Proof.Machine.execSkipNe x y s
  | .setIndex nnn => Sys2Proof.Machine.execSetIndex nnn s
  | .jumpV0 nnn => Sys2Proof.Machine.execJumpV0 nnn s
  | .randAnd x nn => Sys2Proof.Machine.execRandAnd x nn s
  | .draw x y n => Sys2Proof.Machine.execDraw x y n s
  | .skipKeyEq x => Sys2Proof.Machine.execSkipKeyEq x s
  | .skipKeyNe x => Sys2Proof.Machine.execSkipKeyNe x s
  | .getDelay x => Sys2Proof.Machine.execGetDelay x s
  | .getKey x => Sys2Proof.Machine.execGetKey x s
  | .setDelay x => Sys2Proof.Machine.execSetDelay x s
  | .setSound x => Sys2Proof.Machine.execSetSound x s
  | .addIndex x => Sys2Proof.Machine.execAddIndex x s
  | .indexCharacter x => Sys2Proof.Machine.execIndexCharacter x s
  | .setBcd x => Sys2Proof.Machine.execSetBcd x s
  | .regStore x => Sys2Proof.Machine.execRegStore x s
  | .regLoad x => Sys2Proof.Machine.execRegLoad x s

end Sys2Proof.Machine
end

