-- ==== Sys2Proof/Machine/Load.lean ====
section
/-!
DEFINITION. Reset with its two arguments, the program image and `cfg` (spec/70_reset_and_hazards.md R210, R211, R214), for
given parameters. This is how a program comes to run (log 17).
-/

namespace Sys2Proof.Machine

/-- Memory at reset with an image: byte `j` of the image at address 512 + j over the font table and zeros (R211). -/
def placeImage (p : Params) (image : List Byte) : List Host.Cell := Memory.setBytes p [] 512 image

/-- Reset: refused for an image longer than 3584 bytes (R214) and for parameters that are not legal (00_scope.md R10);
else the state of 10_state.md R48. -/
def State.load (c : Cfg) (p : Params) (image : List Byte) : Host.Outcome State Fault Refusal :=
  if imageWf image then
    if p.wf then .next ((State.atReset c p).setMem (placeImage p image)) else .refused .illegalParameters
  else .refused (.imageTooLarge image.length)

end Sys2Proof.Machine
end

