-- ==== Sys2Proof/Machine/Outputs.lean ====
section
/-!
DEFINITION. The level outputs of the CORE and other views of the state that are not stored twice (spec/10_state.md R36,
R46, R47).
-/

namespace Sys2Proof.Machine

/-- `tone`: on exactly when `ST != 0` and `run` = Running (10_state.md R46). -/
def State.tone (s : State) : Bool := decide (s.st ≠ 0#8) && decide (s.run = .running)

/-- `status`: `run` and the fault record (10_state.md R47). -/
def State.status (s : State) : RunStatus × Option Fault := (s.run, s.fault)

/-- `cfg` as four strap bits, in the order of R36's table: bit 0 old shift, bit 1 new jump, bit 2 old store/load, bit 3
index overflow. -/
def strapBits (c : Cfg) : BitVec 4 :=
  BitVec.ofBool c.indexOverflowFlag ++ BitVec.ofBool c.oldStoreLoadBehavior ++ BitVec.ofBool c.newJumpBehavior
    ++ BitVec.ofBool c.oldShiftBehavior

/-- A configuration record with its four quirk bits taken from the straps. -/
def withStraps (c : Cfg) (b : BitVec 4) : Cfg :=
  { c with
    oldShiftBehavior := b.getLsbD 0,
    newJumpBehavior := b.getLsbD 1,
    oldStoreLoadBehavior := b.getLsbD 2,
    indexOverflowFlag := b.getLsbD 3 }

end Sys2Proof.Machine
end

