-- ==== Sys2Proof/Machine/Step.lean ====
section
/-!
DEFINITION. One machine cycle (spec/00_scope.md R14), in the order of 60_exceptions.md R189: run status, quit, fetch,
decode, execute, timer decay.
-/

namespace Sys2Proof.Machine

/-- One machine cycle of `exec` (00_scope.md R14). -/
def step (s : State) : Host.Outcome State Fault Refusal := cycle exec s

/-- `s` with an opcode-table word stored where `step` fetches its next instruction. -/
def State.withFetchWord (s : State) (nbits w : Nat) : State := placeWord s (tableWord nbits w)

end Sys2Proof.Machine
end

