-- ==== Sys2Proof/Safety.lean ====
section
/-!
DEFINITION. The terms claims are stated in: what counts as a safe run, the invariants, the frames ("everything but … is
unchanged"), and the sprite bit that falls on a pixel.
-/

namespace Sys2Proof.Machine

/-! ## Safe runs -/

/-- A state no fault has been taken in: `Running`, or ended by a quit (spec/60_exceptions.md R187, R216). -/
def Safe (s : State) : Bool := decide (s.run ≠ .faulted)

/-! ## Invariants -/

/-- Memory is in its canonical form (Memory.lean). -/
abbrev MemoryCanonical (s : State) : Prop := Memory.wf s.params s.mem = true

/-- A number of entries is within the capacity (10_state.md R27, R28). -/
def withinDepth : StackDepth → Nat → Bool
  | .unbounded, _ => true
  | .bounded n, k => decide (k ≤ n)

/-- The stack holds "at most `STACK_DEPTH` entries" (10_state.md R27). -/
abbrev StackWithinCapacity (s : State) : Prop := withinDepth s.params.stackDepth s.sp = true

/-- A fault the CORE can record: an address of 4096 or more and "at most 65535 + 15" (60_exceptions.md R180), a word the
decoder rejects (R181), the address of a fetched instruction (R182, R183). DeviceInitFailure is none (R184). -/
def faultPossible : Fault → Bool
  | .outOfBoundsAccess a => decide (4096 ≤ a) && decide (a ≤ 65535 + 15)
  | .unknownInstruction w => decide (decode w = .error (.unknownInstruction w))
  | .stackUnderflow a => decide (a.toNat ≤ 4094)
  | .stackOverflow a => decide (a.toNat ≤ 4094)
  | .deviceInitFailure _ => false

/-- A fault is recorded exactly when the run is Faulted, and it is one the CORE can raise (10_state.md R38). -/
abbrev FaultRecordMatches (s : State) : Prop :=
  (s.run = .faulted ↔ s.fault.isSome = true) ∧ s.fault.all faultPossible = true

/-- Until a fault, `pc` is at most 0x10FE and every return address at most 4096 (10_state.md R26). -/
abbrev PcInRange (s : State) : Prop :=
  s.run ≠ .faulted → s.pc.toNat ≤ 0x10FE ∧ ∀ v ∈ s.stack, v.toNat ≤ 4096

/-! ## Frames -/

/-- Every byte of memory reads as before. -/
abbrev SameMemory (s t : State) : Prop := ∀ a : Nat, t.byteAt a = s.byteAt a

/-- Every byte of memory outside `len` bytes from `base` on reads as before. -/
abbrev SameMemoryOutside (base len : Nat) (s t : State) : Prop :=
  ∀ a : Nat, a < base ∨ base + len ≤ a → t.byteAt a = s.byteAt a

/-- Every general register not in the list is unchanged. -/
abbrev SameRegsBut (l : List Reg) (s t : State) : Prop := ∀ r : Reg, r ∉ l → t.reg r = s.reg r

/-- Nothing but general registers changed. -/
abbrev OnlyRegs (s t : State) : Prop := t = { s with regs := t.regs } ∧ SameMemory s t

/-- Nothing but `pc` changed. -/
abbrev OnlyPc (s t : State) : Prop := t = { s with pc := t.pc } ∧ SameMemory s t

/-- Nothing but `pc` and the call stack changed. -/
abbrev OnlyPcAndStack (s t : State) : Prop := t = { s with pc := t.pc, stack := t.stack } ∧ SameMemory s t

/-- Nothing but `pc` and general registers changed. -/
abbrev OnlyPcAndRegs (s t : State) : Prop := t = { s with pc := t.pc, regs := t.regs } ∧ SameMemory s t

/-- Nothing but `I` changed. -/
abbrev OnlyIndex (s t : State) : Prop := t = { s with index := t.index } ∧ SameMemory s t

/-- Nothing but `I` and general registers changed. -/
abbrev OnlyIndexAndRegs (s t : State) : Prop := t = { s with index := t.index, regs := t.regs } ∧ SameMemory s t

/-- Nothing but memory changed. -/
abbrev OnlyMem (s t : State) : Prop := t = { s with mem := t.mem }

/-- Nothing but memory and `I` changed. -/
abbrev OnlyMemAndIndex (s t : State) : Prop := t = { s with mem := t.mem, index := t.index }

/-- Nothing but the framebuffer changed. -/
abbrev OnlyFb (s t : State) : Prop := t = { s with fb := t.fb } ∧ SameMemory s t

/-- Nothing but registers, the two frames and the present events changed. -/
abbrev OnlyDrawn (s t : State) : Prop :=
  t = { s with regs := t.regs, fb := t.fb, fbPrev := t.fbPrev, presented := t.presented } ∧ SameMemory s t

/-- Nothing but `DT` changed. -/
abbrev OnlyDt (s t : State) : Prop := t = { s with dt := t.dt } ∧ SameMemory s t

/-- Nothing but `ST` changed. -/
abbrev OnlySt (s t : State) : Prop := t = { s with st := t.st } ∧ SameMemory s t

/-- A fault was taken: the run is Faulted and the record holds it. Nothing else is said (60_exceptions.md R185). -/
abbrev TookFault (f : Fault) (t : State) : Prop := t.run = .faulted ∧ t.fault = some f

/-! ## Whole-machine vocabulary -/

/-- Which faults an instruction can raise at the execute step (60_exceptions.md R189). -/
def mayRaise : Instr → Fault → Bool
  | .ret, .stackUnderflow _ => true
  | .call _, .stackOverflow _ => true
  | .draw _ _ _, .outOfBoundsAccess a => decide (4096 ≤ a)
  | .setBcd _, .outOfBoundsAccess a => decide (4096 ≤ a)
  | .regStore _, .outOfBoundsAccess a => decide (4096 ≤ a)
  | .regLoad _, .outOfBoundsAccess a => decide (4096 ≤ a)
  | _, _ => false

/-- The instructions that may write `x[15]` as a side effect: exactly Add, Sub, Shr, SubOpp, Shl, Draw, AddIndex
(10_state.md R21). -/
def writesFlag : Instr → Bool
  | .add _ _ | .sub _ _ | .shr _ _ | .subOpp _ _ | .shl _ _ | .draw _ _ _ | .addIndex _ => true
  | _ => false

/-- The general registers an instruction names as its destination (10_state.md R22). -/
def isDestination : Instr → Reg → Bool
  | .setIm x _, r | .addIm x _, r | .randAnd x _, r | .getDelay x, r | .getKey x, r => decide (r = x)
  | .set x _, r | .or x _, r | .and x _, r | .xor x _, r | .add x _, r | .sub x _, r | .shr x _, r
  | .subOpp x _, r | .shl x _, r => decide (r = x)
  | .regLoad x, r => decide (r ≤ x)
  | _, _ => false

/-- Whether the sprite of Draw has a 1 bit on the pixel at row `r`, column `c` (43_display.md R161, R162): the origin is
wrapped into the grid, row `r - y0` is the byte at `I + (r - y0)`, and bit 7 is the leftmost column. Pixels off the grid
have no row or column here, so what falls off it is clipped. -/
def spriteBitAt (s : State) (x y : Reg) (n : BitVec 4) (r c : Nat) : Bool :=
  decide ((s.reg y).toNat % 32 ≤ r ∧ r < (s.reg y).toNat % 32 + n.toNat) &&
  decide ((s.reg x).toNat % 64 ≤ c ∧ c < (s.reg x).toNat % 64 + 8) &&
  (s.byteAt (s.index.toNat + (r - (s.reg y).toNat % 32))).getLsbD (7 - (c - (s.reg x).toNat % 64))

end Sys2Proof.Machine
end

