-- ==== Sys2Proof/Certificates/Slice0/Obligations.lean ====
section
/-!
DEFINITION. The statements about the model, for the provers. Each says which rule of the spec it rests on. "Next state" is
`Host.Outcome.next`; the state `s` an instruction is executed in is the one after the fetch, so `pc` holds the address of
the instruction plus 2 (spec/10_state.md R25).
-/

open Sys2Proof Sys2Proof.Machine

/-! ## Encoding and decoding -/

/-- 30_encoding.md R85: the source's six decode examples. -/
def Obligations.DecodeExamplesOfTheSource : Prop :=
  decode 0x00E0#16 = .ok .clearScreen ∧
  decode 0x1FFF#16 = .ok (.jump 0xFFF#12) ∧
  decode 0x61FF#16 = .ok (.setIm 1 255#8) ∧
  decode 0x7EAA#16 = .ok (.addIm 14 170#8) ∧
  decode 0xAAAA#16 = .ok (.setIndex 0xAAA#12) ∧
  decode 0xDA1C#16 = .ok (.draw 10 1 12#4)

/-- Decode and encode agree, for every well-formed instruction with every operand, on the word and on the bytes in memory
order (30_encoding.md R71 to R75, R77; 20_memory.md R55). -/
def Obligations.DecodeOfEncodeIsTheInstruction : Prop :=
  ∀ i : Instr, i.wf = true →
    decode (encode i) = .ok i ∧ ∀ rest : List Byte, decodeBytes (encodeBytes i ++ rest) = .ok (i, rest)

/-- The other direction: a word that decodes is the encoding of what it decodes to, so each legal word has one meaning and no
bit of it is dropped (30_encoding.md R75, R76). -/
def Obligations.EncodeOfDecodeIsTheWord : Prop :=
  ∀ (w : Word) (i : Instr), decode w = .ok i → encode i = w

/-- 30_encoding.md R74, R78: the decoder accepts exactly the words that match a row of the table, and rejects every other
word by name, carrying the word. -/
def Obligations.DecodeAcceptsExactlyTheTable : Prop :=
  ∀ w : Word,
    (opcodeRows.any (fun r => r.matches w) = true → ∃ i, decode w = .ok i) ∧
    (opcodeRows.any (fun r => r.matches w) = false → decode w = .error (.unknownInstruction w))

/-- 30_encoding.md R74: "No two rows overlap." -/
def Obligations.NoTwoOpcodeRowsOverlap : Prop :=
  ∀ w : Word, (opcodeRows.filter (fun r => r.matches w)).length ≤ 1

/-! ## The machine cycle -/

/-- 00_scope.md R14 steps 2 to 5: when the two bytes at `pc` decode to `i`, a running machine without a quit request executes
`i` with `pc` advanced by 2, and then ends the cycle. -/
def Obligations.StepRunsTheDecodedInstruction : Prop :=
  ∀ (s : State) (i : Instr), s.run = .running → s.inp.quit = false → s.pc.toNat + 1 < 4096 →
    decode (wordOfBytes (s.byteAt s.pc.toNat) (s.byteAt (s.pc.toNat + 1))) = .ok i →
    i.wf = true ∧ step s = finishCycle (exec i (s.setPc (s.pc + 2#16)))

/-- 60_exceptions.md R195, 00_scope.md R14 step 6: after an instruction that took no fault the timers go down by the ticks of
this cycle's sample, saturating; the frame is presented when there is a tick; everything else the instruction left is kept;
and the next input sample comes in. That the listed sample is the head of `env` is the model's own (log 1), and so is the
list of present events (log 10). -/
def Obligations.CompletedCycleDecaysTheTimers : Prop :=
  ∀ (s t : State) (i : Instr), s.run = .running → s.inp.quit = false → s.pc.toNat + 1 < 4096 →
    decode (wordOfBytes (s.byteAt s.pc.toNat) (s.byteAt (s.pc.toNat + 1))) = .ok i →
    exec i (s.setPc (s.pc + 2#16)) = .next t → t.run ≠ .faulted →
    ∃ u, step s = .next u ∧
      u.dt.toNat = t.dt.toNat - s.inp.ticks ∧ u.st.toNat = t.st.toNat - s.inp.ticks ∧
      (0 < s.inp.ticks → u.presented = (t.fb, t.fbPrev) :: t.presented ∧ u.fbPrev = t.fb) ∧
      (s.inp.ticks = 0 → u.presented = t.presented ∧ u.fbPrev = t.fbPrev) ∧
      (∀ x rest, s.env = x :: rest → u.inp = x ∧ u.env = rest) ∧
      u = { t with
        dt := u.dt, st := u.st, fbPrev := u.fbPrev, presented := u.presented,
        inp := u.inp, env := u.env, draws := u.draws }

/-- 60_exceptions.md R185: when the instruction takes a fault, the fault is recorded and the rest of the cycle is not
performed: the step answers the state the fault left. That a fault is taken as a next state is the model's own (log 7). -/
def Obligations.FaultEndsTheCycle : Prop :=
  ∀ (s t : State) (i : Instr), s.run = .running → s.inp.quit = false → s.pc.toNat + 1 < 4096 →
    decode (wordOfBytes (s.byteAt s.pc.toNat) (s.byteAt (s.pc.toNat + 1))) = .ok i →
    exec i (s.setPc (s.pc + 2#16)) = .next t → t.run = .faulted →
    step s = .next t ∧ ∃ f, t.fault = some f ∧ mayRaise i f = true

/-- 20_memory.md R53, 60_exceptions.md R180: a fetch at 4095 or beyond takes OutOfBoundsAccess with the first address out of
range of `pc`, `pc + 1` (which one is reported is the spec's own choice, 92_eei_decisions.md D15, log 19). -/
def Obligations.FetchOutOfRangeTakesOutOfBounds : Prop :=
  ∀ s : State, s.run = .running → s.inp.quit = false → 4095 ≤ s.pc.toNat →
    ∃ t, step s = .next t ∧
      TookFault (.outOfBoundsAccess (if s.pc.toNat = 4095 then 4096 else s.pc.toNat)) t

/-- The word `withFetchWord` stores is the one the next cycle fetches and runs, whatever stood there before: so stored bytes
are what the next fetch sees (20_memory.md R65), and memory keeps its canonical form. (`withFetchWord` and the canonical form
are the model's own, log 18 and log 9.) -/
def Obligations.PlacedWordIsTheOneTheNextCycleRuns : Prop :=
  ∀ (s : State) (w : Word) (i : Instr), MemoryCanonical s → decode w = .ok i →
    let p := s.withFetchWord 16 w.toNat
    MemoryCanonical p ∧ step p = finishCycle (exec i (p.setPc (p.pc + 2#16)))

/-- 60_exceptions.md R181: a fetched word that matches no row takes UnknownInstruction with the word. That it is taken as a
next state is the model's own (log 7). -/
def Obligations.UnassignedWordTakesUnknownInstruction : Prop :=
  ∀ s : State, s.run = .running → s.inp.quit = false → s.pc.toNat + 1 < 4096 →
    opcodeRows.any (fun r => r.matches (wordOfBytes (s.byteAt s.pc.toNat) (s.byteAt (s.pc.toNat + 1)))) = false →
    ∃ t, step s = .next t ∧
      TookFault (.unknownInstruction (wordOfBytes (s.byteAt s.pc.toNat) (s.byteAt (s.pc.toNat + 1)))) t

/-- 60_exceptions.md R187: quit halts the run and the cycle does nothing else, whatever stands at `pc` (that it is checked
before the fetch is the spec's own choice, 92_eei_decisions.md D3; that no further sample is taken is the model's own, log
11). -/
def Obligations.QuitHaltsBeforeTheFetch : Prop :=
  ∀ s : State, s.run = .running → s.inp.quit = true → step s = .next { s with run := .halted }

/-- 60_exceptions.md R186: once the run is Halted or Faulted a cycle changes nothing, and the tone is off. The tone of an
ended run is the spec's own choice (92_eei_decisions.md D15, log 23), and that no further sample is taken the model's (log
11). -/
def Obligations.EndedRunChangesNothing : Prop :=
  ∀ s : State, s.run ≠ .running → step s = .next s ∧ s.tone = false

/-- 10_state.md R37, 70_reset_and_hazards.md R216: the run status goes from Running to Halted exactly on a quit request
(checked first, the spec's own choice, 92_eei_decisions.md D3), from Running to Faulted only with a fault recorded, and never
leaves Halted or Faulted. (Log 7, log 11.) -/
def Obligations.RunEndsOnlyByQuitOrFault : Prop :=
  ∀ s t : State, step s = .next t →
    (s.run = .running →
      (t.run = .halted ↔ s.inp.quit = true) ∧ (t.run = .faulted → ∃ f, t.fault = some f) ∧
      (t.run = .running → t.fault = s.fault)) ∧
    (s.run ≠ .running → t.run = s.run ∧ t.fault = s.fault)

/-- Every cycle of every state answers a next state: a fault is taken, a wait is an ordinary cycle (60_exceptions.md R185,
R204), and no instruction is refused. That a fault is a next state is the model's own (log 7). -/
def Obligations.StepAlwaysAnswersANextState : Prop :=
  ∀ s : State, ∃ t, step s = .next t

/-- 60_exceptions.md R189: at the execute step Return raises StackUnderflow only, Call StackOverflow only, Draw, SetBcd,
RegStore and RegLoad OutOfBoundsAccess at an address of 4096 or more only, and every other instruction nothing. That a fault
is a next state is the model's own (log 7). -/
def Obligations.EachInstructionRaisesOnlyItsFault : Prop :=
  ∀ (i : Instr) (s : State), s.run = .running →
    ∃ t, exec i s = .next t ∧
      (t.run = .running ∨ ∃ f, TookFault f t ∧ mayRaise i f = true)

/-! ## Whole-machine rules -/

/-- 10_state.md R21, R22: an instruction that completes changes general register `r` only if it names it as destination, or
if `r` is the flag register and it is one of Add, Sub, Shr, SubOpp, Shl, Draw, AddIndex. That moves, logic, AddIm and RandAnd
leave the flag register alone is the spec's own choice (92_eei_decisions.md D9, log 22). -/
def Obligations.OnlyListedInstructionsWriteRegisters : Prop :=
  ∀ (i : Instr) (s t : State) (r : Reg), exec i s = .next t → s.run = .running → t.run = .running →
    t.reg r ≠ s.reg r → isDestination i r = true ∨ (r = 15 ∧ writesFlag i = true)

/-- 10_state.md R27, R34, R32, R33, R23, 20_memory.md R61: only Call and Return touch the stack, only ClearScreen and Draw
the framebuffer, only SetDelay `DT`, only SetSound `ST`, only SetIndex, AddIndex, IndexCharacter and, under their quirk,
RegStore and RegLoad `I`, only SetBcd and RegStore memory, by an instruction that completes. -/
def Obligations.OnlyListedInstructionsWriteOtherState : Prop :=
  ∀ (i : Instr) (s t : State), exec i s = .next t → s.run = .running → t.run = .running →
    (t.stack ≠ s.stack → i = .ret ∨ ∃ nnn, i = .call nnn) ∧
    (t.fb ≠ s.fb → i = .clearScreen ∨ ∃ x y n, i = .draw x y n) ∧
    (t.dt ≠ s.dt → ∃ x, i = .setDelay x) ∧
    (t.st ≠ s.st → ∃ x, i = .setSound x) ∧
    (t.index ≠ s.index →
      (∃ nnn, i = .setIndex nnn) ∨ (∃ x, i = .addIndex x) ∨ (∃ x, i = .indexCharacter x) ∨
      (s.cfg.oldStoreLoadBehavior = true ∧ ∃ x, i = .regStore x ∨ i = .regLoad x)) ∧
    ((∃ a, t.byteAt a ≠ s.byteAt a) → ∃ x, i = .setBcd x ∨ i = .regStore x)

/-- 00_scope.md R9, R10, 10_state.md R36: the configuration record and the parameters are constant for a run. That a fault
keeps them too is the model's own choice (log 8): R185 leaves every part of the state but `run` and `fault` unspecified
there. -/
def Obligations.ConfigurationIsConstant : Prop :=
  ∀ s t : State, step s = .next t → t.cfg = s.cfg ∧ t.params = s.params

/-- 10_state.md R41, R43: only RandAnd reads the random byte, and only SkipKeyEq, SkipKeyNe and GetKey read the keys: any
other instruction does the same whatever they are. For an instruction that takes a fault the statement compares two faulted
states whose free values are applied to the same counter: that they agree is the model's own (log 2, log 8), for the hardware
leaves them any value (60_exceptions.md R185). -/
def Obligations.InputsAreReadOnlyByTheirInstructions : Prop :=
  ∀ (i : Instr) (s t : State) (rand : Byte) (keys : BitVec 16), exec i s = .next t →
    ((¬ ∃ x nn, i = .randAnd x nn) →
      exec i { s with inp := { s.inp with rand := rand } } = .next { t with inp := { t.inp with rand := rand } }) ∧
    ((¬ ∃ x, i = .skipKeyEq x ∨ i = .skipKeyNe x ∨ i = .getKey x) →
      exec i { s with inp := { s.inp with keys := keys } } = .next { t with inp := { t.inp with keys := keys } })

/-- 00_scope.md R9, 70_reset_and_hazards.md R222, 60_exceptions.md R196: the throttle rate, the timer period, the display
scale and the volume change nothing a cycle does. It compares two cycles with equal counters and equal listed samples: that
the states after a fault agree, and that the next sample does (its ticks too, which 60_exceptions.md R196 lets the period
decide), is the model's own (log 1, log 2, log 8). -/
def Obligations.TimingAndCosmeticNumbersAreInert : Prop :=
  ∀ (s t : State) (rate period : Nat) (scale : Int) (volume : Fin 101), step s = .next t →
    let other (u : State) : State :=
      { u with cfg := { u.cfg with
          instructionsPerSecond := rate, timerPeriodMs := period, displayScale := scale, volume := volume } }
    step (other s) = .next (other t)

/-! ## Invariants -/

/-- The state after reset meets every invariant below, for every configuration record and all parameters. (The canonical form
is the model's own, log 9; the values of `State.reset` are log 4 and log 5.) -/
def Obligations.ResetMeetsTheInvariants : Prop :=
  ∀ (c : Cfg) (p : Params),
    MemoryCanonical (State.atReset c p) ∧ StackWithinCapacity (State.atReset c p) ∧
    FaultRecordMatches (State.atReset c p) ∧ PcInRange (State.atReset c p) ∧
    State.reset = State.atReset defaultCfg defaultParams

/-- Every cycle keeps memory in its canonical form: addresses strictly rising and below 4096, none listed with its reset
content (20_memory.md R50, R51; the list form is the model's, log 9, and so is that a fault leaves one, log 8). -/
def Obligations.StepKeepsMemoryCanonical : Prop :=
  ∀ s t : State, MemoryCanonical s → step s = .next t → MemoryCanonical t

/-- 10_state.md R27, R28: every cycle keeps the call stack within STACK_DEPTH entries. That a fault keeps the bound is the
model's own (log 8). -/
def Obligations.StepKeepsTheStackWithinCapacity : Prop :=
  ∀ s t : State, StackWithinCapacity s → step s = .next t → StackWithinCapacity t

/-- 10_state.md R38, 60_exceptions.md R193: a fault is recorded exactly when the run is Faulted, and it is one of the four
kinds the CORE raises, with information that fits it; kept by every cycle. What a record carries for the two stack faults is
the spec's own choice (92_eei_decisions.md D15, log 19); DeviceInitFailure is never raised (log 21). -/
def Obligations.StepKeepsTheFaultRecord : Prop :=
  ∀ s t : State, FaultRecordMatches s → step s = .next t → FaultRecordMatches t

/-- 10_state.md R26: until a fault, `pc` never exceeds 0x10FE and return addresses never exceed 4096; kept by every cycle (no
masking of `pc` is the spec's own choice, 92_eei_decisions.md D20, log 15). -/
def Obligations.StepKeepsPcInRange : Prop :=
  ∀ s t : State, PcInRange s → step s = .next t → PcInRange t

/-! ## Reset and loading -/

/-- 10_state.md R24, R48, 70_reset_and_hazards.md R210, R212: what reset leaves. `pc` = 512 and Running are the source's; the
zeros, the empty stack and the blank frames are the spec's decision D5 (log 6). -/
def Obligations.ResetLeavesTheTableOfValues : Prop :=
  ∀ (c : Cfg) (p : Params) (r : Reg) (row col : Nat),
    let s := State.atReset c p
    s.reg r = 0#8 ∧ s.index = 0#16 ∧ s.pc = 512#16 ∧ s.stack = [] ∧ s.dt = 0#8 ∧ s.st = 0#8 ∧
    s.fb.get row col = false ∧ s.fbPrev.get row col = false ∧ s.run = .running ∧ s.fault = none ∧
    s.cfg = c ∧ s.params = p ∧ s.tone = false

/-- 70_reset_and_hazards.md R211, R214, 20_memory.md R56, R59: reset with an image that fits puts the image at 512, the font
at FONT_BASE and zero elsewhere, with everything else as reset; a longer image is refused (the refusal is the spec's own
choice, 92_eei_decisions.md D18, log 17; the canonical form is the model's, log 9). -/
def Obligations.LoadPlacesFontAndImage : Prop :=
  ∀ (c : Cfg) (p : Params) (image : List Byte),
    (image.length ≤ 3584 → p.wf = true →
      ∃ s, State.load c p image = .next s ∧ MemoryCanonical s ∧ s = { State.atReset c p with mem := s.mem } ∧
        (∀ j, j < image.length → s.byteAt (512 + j) = image.getD j 0#8) ∧
        (∀ (j : Nat) (hj : j < 80), s.byteAt (p.fontBase + j) = p.fontData[j]) ∧
        (∀ a, (a < 512 ∨ 512 + image.length ≤ a) → (a < p.fontBase ∨ p.fontBase + 80 ≤ a) → s.byteAt a = 0#8)) ∧
    (3584 < image.length → State.load c p image = .refused (.imageTooLarge image.length))

/-- 20_memory.md R51, R52, R54: "write_u8(a, v) followed by read_u8(a) returns v" for every address below 4096, a read
returns the cell, a write changes the one cell and nothing else, and at 4096 and beyond both operations fail with that
address. The canonical form, as premise and as conclusion, is the model's own (log 9). -/
def Obligations.MemoryReadsBackWhatWasWritten : Prop :=
  ∀ (s : State) (a : Nat) (v : Byte), MemoryCanonical s →
    (a < 4096 → memRead1 s a = .ok (s.byteAt a) ∧
      ∃ t, memWrite1 s a v = .ok t ∧ MemoryCanonical t ∧ memRead1 t a = .ok v ∧
        (∀ b, b ≠ a → memRead1 t b = memRead1 s b) ∧ OnlyMem s t) ∧
    (4096 ≤ a →
      memWrite1 s a v = .error (.outOfBoundsAccess a) ∧ memRead1 s a = .error (.outOfBoundsAccess a))

/-! ## ALU -/

/-- 41_alu.md R121. That no flag is written is the spec's own choice (92_eei_decisions.md D9, log 22). -/
def Obligations.SetImWritesTheImmediate : Prop :=
  ∀ (x : Reg) (nn : Byte) (s : State),
    ∃ t, exec (.setIm x nn) s = .next t ∧ t.reg x = nn ∧ SameRegsBut [x] s t ∧ OnlyRegs s t

/-- 41_alu.md R122: modulo 256, and no flag (R134). That no flag is written is the spec's own choice (92_eei_decisions.md D9,
log 22). -/
def Obligations.AddImWrapsWithoutFlag : Prop :=
  ∀ (x : Reg) (nn : Byte) (s : State),
    ∃ t, exec (.addIm x nn) s = .next t ∧ (t.reg x).toNat = ((s.reg x).toNat + nn.toNat) % 256 ∧
      SameRegsBut [x] s t ∧ OnlyRegs s t

/-- 41_alu.md R123 to R126: Set, Or, And, Xor, bit by bit, with no flag (R134). That no flag is written is the spec's own
choice (92_eei_decisions.md D9, log 22). -/
def Obligations.MoveAndLogicAreBitwise : Prop :=
  ∀ (x y : Reg) (s : State),
    (∃ t, exec (.set x y) s = .next t ∧ t.reg x = s.reg y ∧ SameRegsBut [x] s t ∧ OnlyRegs s t) ∧
    (∃ t, exec (.or x y) s = .next t ∧
      (∀ k, (t.reg x).getLsbD k = ((s.reg x).getLsbD k || (s.reg y).getLsbD k)) ∧
      SameRegsBut [x] s t ∧ OnlyRegs s t) ∧
    (∃ t, exec (.and x y) s = .next t ∧
      (∀ k, (t.reg x).getLsbD k = ((s.reg x).getLsbD k && (s.reg y).getLsbD k)) ∧
      SameRegsBut [x] s t ∧ OnlyRegs s t) ∧
    (∃ t, exec (.xor x y) s = .next t ∧
      (∀ k, (t.reg x).getLsbD k = ((s.reg x).getLsbD k ^^ (s.reg y).getLsbD k)) ∧
      SameRegsBut [x] s t ∧ OnlyRegs s t)

/-- 41_alu.md R127: sum and carry, for a destination that is not the flag register (FlagDestinationHoldsTheFlag says what
happens there). -/
def Obligations.AddWritesSumAndCarry : Prop :=
  ∀ (x y : Reg) (s : State), x ≠ 15 →
    ∃ t, exec (.add x y) s = .next t ∧
      (t.reg x).toNat = ((s.reg x).toNat + (s.reg y).toNat) % 256 ∧
      t.reg 15 = (if 255 < (s.reg x).toNat + (s.reg y).toNat then 1#8 else 0#8) ∧
      SameRegsBut [x, 15] s t ∧ OnlyRegs s t

/-- 41_alu.md R128: difference and inverse borrow, for a destination that is not the flag register. -/
def Obligations.SubWritesDifferenceAndNoBorrow : Prop :=
  ∀ (x y : Reg) (s : State), x ≠ 15 →
    ∃ t, exec (.sub x y) s = .next t ∧
      (t.reg x).toNat = ((s.reg x).toNat + 256 - (s.reg y).toNat) % 256 ∧
      t.reg 15 = (if (s.reg y).toNat ≤ (s.reg x).toNat then 1#8 else 0#8) ∧
      SameRegsBut [x, 15] s t ∧ OnlyRegs s t

/-- 41_alu.md R131: Y - X with the flag test mirrored, for a destination that is not the flag register. -/
def Obligations.SubOppWritesMirroredDifference : Prop :=
  ∀ (x y : Reg) (s : State), x ≠ 15 →
    ∃ t, exec (.subOpp x y) s = .next t ∧
      (t.reg x).toNat = ((s.reg y).toNat + 256 - (s.reg x).toNat) % 256 ∧
      t.reg 15 = (if (s.reg x).toNat ≤ (s.reg y).toNat then 1#8 else 0#8) ∧
      SameRegsBut [x, 15] s t ∧ OnlyRegs s t

/-- 41_alu.md R130: Shr of `x[Y]` under the old-shift quirk, else of `x[X]`; the flag is the lowest bit of the unshifted
value; for a destination that is not the flag register. -/
def Obligations.ShrShiftsTheSelectedRegister : Prop :=
  ∀ (x y : Reg) (s : State), x ≠ 15 →
    let v := if s.cfg.oldShiftBehavior = true then s.reg y else s.reg x
    ∃ t, exec (.shr x y) s = .next t ∧
      (t.reg x).toNat = v.toNat / 2 ∧ (t.reg 15).toNat = v.toNat % 2 ∧
      SameRegsBut [x, 15] s t ∧ OnlyRegs s t

/-- 41_alu.md R132: Shl likewise; the flag is the highest bit of the unshifted value. -/
def Obligations.ShlShiftsTheSelectedRegister : Prop :=
  ∀ (x y : Reg) (s : State), x ≠ 15 →
    let v := if s.cfg.oldShiftBehavior = true then s.reg y else s.reg x
    ∃ t, exec (.shl x y) s = .next t ∧
      (t.reg x).toNat = v.toNat * 2 % 256 ∧ (t.reg 15).toNat = v.toNat / 128 ∧
      SameRegsBut [x, 15] s t ∧ OnlyRegs s t

/-- 41_alu.md R129, the spec's own choice (92_eei_decisions.md D10, log 12): with X = 15 the flag is written last, so
register 15 ends holding the flag, in all five flag-producing ALU instructions. -/
def Obligations.FlagDestinationHoldsTheFlag : Prop :=
  ∀ (y : Reg) (s : State),
    let v := if s.cfg.oldShiftBehavior = true then s.reg y else s.reg 15
    (∃ t, exec (.add 15 y) s = .next t ∧
      t.reg 15 = (if 255 < (s.reg 15).toNat + (s.reg y).toNat then 1#8 else 0#8) ∧
      SameRegsBut [15] s t ∧ OnlyRegs s t) ∧
    (∃ t, exec (.sub 15 y) s = .next t ∧
      t.reg 15 = (if (s.reg y).toNat ≤ (s.reg 15).toNat then 1#8 else 0#8) ∧
      SameRegsBut [15] s t ∧ OnlyRegs s t) ∧
    (∃ t, exec (.subOpp 15 y) s = .next t ∧
      t.reg 15 = (if (s.reg 15).toNat ≤ (s.reg y).toNat then 1#8 else 0#8) ∧
      SameRegsBut [15] s t ∧ OnlyRegs s t) ∧
    (∃ t, exec (.shr 15 y) s = .next t ∧ (t.reg 15).toNat = v.toNat % 2 ∧
      SameRegsBut [15] s t ∧ OnlyRegs s t) ∧
    (∃ t, exec (.shl 15 y) s = .next t ∧ (t.reg 15).toNat = v.toNat / 128 ∧
      SameRegsBut [15] s t ∧ OnlyRegs s t)

/-- 41_alu.md R133: the cycle's random byte, whatever it is, ANDed with the immediate: a bit clear in NN is clear in the
result. That no flag is written is the spec's own choice (92_eei_decisions.md D9, log 22). -/
def Obligations.RandAndMasksTheDraw : Prop :=
  ∀ (x : Reg) (nn : Byte) (s : State),
    ∃ t, exec (.randAnd x nn) s = .next t ∧
      (∀ k, (t.reg x).getLsbD k = (s.inp.rand.getLsbD k && nn.getLsbD k)) ∧
      SameRegsBut [x] s t ∧ OnlyRegs s t

/-! ## Control transfer -/

/-- 40_control_flow.md R102: any target, 4095 included, may be written into `pc`. -/
def Obligations.JumpSetsPc : Prop :=
  ∀ (nnn : BitVec 12) (s : State),
    ∃ t, exec (.jump nnn) s = .next t ∧ t.pc.toNat = nnn.toNat ∧ OnlyPc s t

/-- 40_control_flow.md R103, 10_state.md R30: with room on the stack, Call pushes the address after it and jumps. -/
def Obligations.CallPushesTheReturnAddress : Prop :=
  ∀ (nnn : BitVec 12) (s : State),
    (∀ n, s.params.stackDepth = .bounded n → s.stack.length < n) →
    ∃ t, exec (.call nnn) s = .next t ∧ t.stack = s.pc :: s.stack ∧ t.pc.toNat = nnn.toNat ∧ OnlyPcAndStack s t

/-- 60_exceptions.md R183, 10_state.md R30: a Call on a full stack takes StackOverflow with the address of the Call (the kind
and the information are the spec's own choice, 92_eei_decisions.md D4, D15, log 19). -/
def Obligations.CallOnAFullStackTakesStackOverflow : Prop :=
  ∀ (nnn : BitVec 12) (s : State) (n : Nat), s.params.stackDepth = .bounded n → s.stack.length = n →
    ∃ t, exec (.call nnn) s = .next t ∧ TookFault (.stackOverflow (s.pc - 2#16)) t

/-- 10_state.md R31: Pop returns the top entry and leaves the rest, and on an empty stack raises StackUnderflow; nothing but the
stack changes. -/
def Obligations.PopTakesTheTopOrUnderflows : Prop :=
  ∀ s : State,
    (∀ (v : Word) (rest : List Word), s.stack = v :: rest → pop s = .ok (v, { s with stack := rest })) ∧
    (s.stack = [] → ∃ a, pop s = .error (.stackUnderflow a))

/-- 40_control_flow.md R101, 10_state.md R31: Return pops the top entry into `pc`, as it is. -/
def Obligations.ReturnPopsIntoPc : Prop :=
  ∀ (s : State) (v : Word) (rest : List Word), s.stack = v :: rest →
    ∃ t, exec .ret s = .next t ∧ t.pc = v ∧ t.stack = rest ∧ OnlyPcAndStack s t

/-- 60_exceptions.md R182, 10_state.md R31: a Return on an empty stack takes StackUnderflow (that the record holds the
address of the Return is the spec's own choice, 92_eei_decisions.md D15, log 19). -/
def Obligations.ReturnOnAnEmptyStackTakesStackUnderflow : Prop :=
  ∀ s : State, s.stack = [] →
    ∃ t, exec .ret s = .next t ∧ TookFault (.stackUnderflow (s.pc - 2#16)) t

/-- 40_control_flow.md R104: NNN plus register 0, or under the quirk plus the register indexed by the immediate's high
nibble; a 16-bit sum that is not reduced modulo 4096 (the spec's own choice, 92_eei_decisions.md D20, log 15). -/
def Obligations.JumpV0AddsTheSelectedRegister : Prop :=
  ∀ (nnn : BitVec 12) (s : State),
    ∃ t, exec (.jumpV0 nnn) s = .next t ∧
      (s.cfg.newJumpBehavior = false → t.pc.toNat = nnn.toNat + (s.reg 0).toNat) ∧
      (s.cfg.newJumpBehavior = true →
        ∀ x : Reg, x.val = nnn.toNat / 256 → t.pc.toNat = nnn.toNat + (s.reg x).toNat) ∧
      OnlyPc s t

/-- 40_control_flow.md R105 to R109: the four register skips step over one more word exactly when their condition holds. -/
def Obligations.RegisterSkipsTestTheirCondition : Prop :=
  ∀ (x y : Reg) (nn : Byte) (s : State),
    (∃ t, exec (.skipEqIm x nn) s = .next t ∧ OnlyPc s t ∧
      (s.reg x = nn → t.pc = s.pc + 2#16) ∧ (s.reg x ≠ nn → t.pc = s.pc)) ∧
    (∃ t, exec (.skipNeIm x nn) s = .next t ∧ OnlyPc s t ∧
      (s.reg x ≠ nn → t.pc = s.pc + 2#16) ∧ (s.reg x = nn → t.pc = s.pc)) ∧
    (∃ t, exec (.skipEq x y) s = .next t ∧ OnlyPc s t ∧
      (s.reg x = s.reg y → t.pc = s.pc + 2#16) ∧ (s.reg x ≠ s.reg y → t.pc = s.pc)) ∧
    (∃ t, exec (.skipNe x y) s = .next t ∧ OnlyPc s t ∧
      (s.reg x ≠ s.reg y → t.pc = s.pc + 2#16) ∧ (s.reg x = s.reg y → t.pc = s.pc))

/-! ## Index register and memory -/

/-- 42_index_memory.md R141. -/
def Obligations.SetIndexLoadsTheImmediate : Prop :=
  ∀ (nnn : BitVec 12) (s : State),
    ∃ t, exec (.setIndex nnn) s = .next t ∧ t.index.toNat = nnn.toNat ∧ OnlyIndex s t

/-- 42_index_memory.md R142: the sum modulo 65536; under the quirk the flag register becomes 1 when the new `I` is 4096 or
more, and below that 0 only with INDEX_OVERFLOW_CLEARS; with the quirk off no register changes (the wrap and the parameter
are the spec's own choices, 92_eei_decisions.md D12, D13, log 14). -/
def Obligations.AddIndexAddsAndFlags : Prop :=
  ∀ (x : Reg) (s : State),
    ∃ t, exec (.addIndex x) s = .next t ∧
      t.index.toNat = (s.index.toNat + (s.reg x).toNat) % 65536 ∧
      (s.cfg.indexOverflowFlag = false → t.reg 15 = s.reg 15) ∧
      (s.cfg.indexOverflowFlag = true → 4096 ≤ t.index.toNat → t.reg 15 = 1#8) ∧
      (s.cfg.indexOverflowFlag = true → t.index.toNat < 4096 → s.params.indexOverflowClears = true →
        t.reg 15 = 0#8) ∧
      (s.cfg.indexOverflowFlag = true → t.index.toNat < 4096 → s.params.indexOverflowClears = false →
        t.reg 15 = s.reg 15) ∧
      SameRegsBut [15] s t ∧ OnlyIndexAndRegs s t

/-- 42_index_memory.md R143, 20_memory.md R57: the glyph of the low nibble, for every legal FONT_BASE. The constraint on
FONT_BASE is the spec's own choice (92_eei_decisions.md D6, log 5). -/
def Obligations.IndexCharacterPointsAtTheGlyph : Prop :=
  ∀ (x : Reg) (s : State), s.params.wf = true →
    ∃ t, exec (.indexCharacter x) s = .next t ∧
      t.index.toNat = s.params.fontBase + 5 * ((s.reg x).toNat % 16) ∧ OnlyIndex s t

/-- 42_index_memory.md R144: hundreds, tens and ones at `I`, `I + 1`, `I + 2`, and every other byte unchanged. -/
def Obligations.SetBcdStoresThreeDigits : Prop :=
  ∀ (x : Reg) (s : State), MemoryCanonical s → s.index.toNat + 2 < 4096 →
    ∃ t, exec (.setBcd x) s = .next t ∧
      (t.byteAt s.index.toNat).toNat = (s.reg x).toNat / 100 ∧
      (t.byteAt (s.index.toNat + 1)).toNat = (s.reg x).toNat / 10 % 10 ∧
      (t.byteAt (s.index.toNat + 2)).toNat = (s.reg x).toNat % 10 ∧
      SameMemoryOutside s.index.toNat 3 s t ∧ OnlyMem s t

/-- 42_index_memory.md R145: `x[0]` to `x[X]` at `I` on, every other byte unchanged, and `I` advanced by X + 1 under the quirk
only. -/
def Obligations.RegStoreStoresTheRange : Prop :=
  ∀ (x : Reg) (s : State), MemoryCanonical s → s.index.toNat + x.val < 4096 →
    ∃ t, exec (.regStore x) s = .next t ∧
      (∀ r : Reg, r ≤ x → t.byteAt (s.index.toNat + r.val) = s.reg r) ∧
      SameMemoryOutside s.index.toNat (x.val + 1) s t ∧
      (s.cfg.oldStoreLoadBehavior = false → t.index = s.index) ∧
      (s.cfg.oldStoreLoadBehavior = true → t.index.toNat = s.index.toNat + x.val + 1) ∧
      OnlyMemAndIndex s t

/-- 42_index_memory.md R146: `x[0]` to `x[X]` from `I` on, every other register and all memory unchanged, and `I` advanced by
X + 1 under the quirk only. -/
def Obligations.RegLoadLoadsTheRange : Prop :=
  ∀ (x : Reg) (s : State), s.index.toNat + x.val < 4096 →
    ∃ t, exec (.regLoad x) s = .next t ∧
      (∀ r : Reg, r ≤ x → t.reg r = s.byteAt (s.index.toNat + r.val)) ∧
      (∀ r : Reg, x < r → t.reg r = s.reg r) ∧
      (s.cfg.oldStoreLoadBehavior = false → t.index = s.index) ∧
      (s.cfg.oldStoreLoadBehavior = true → t.index.toNat = s.index.toNat + x.val + 1) ∧
      OnlyIndexAndRegs s t

/-- 60_exceptions.md R180, 42_index_memory.md R144 to R146, 43_display.md R161: an instruction one of whose bytes lies at
4096 or beyond takes OutOfBoundsAccess, Draw for rows that would be clipped too (the spec's own choice, 92_eei_decisions.md
D14, log 16). That the record names the first such address rests on the spec's own choices D15 and D23 (log 19). A Draw
without rows is in DrawTogglesTheSprite. -/
def Obligations.MemoryInstructionsTakeOutOfBounds : Prop :=
  ∀ (x y : Reg) (n : BitVec 4) (s : State),
    let first := if s.index.toNat < 4096 then 4096 else s.index.toNat
    (4096 ≤ s.index.toNat + 2 →
      ∃ t, exec (.setBcd x) s = .next t ∧ TookFault (.outOfBoundsAccess first) t) ∧
    (4096 ≤ s.index.toNat + x.val →
      (∃ t, exec (.regStore x) s = .next t ∧ TookFault (.outOfBoundsAccess first) t) ∧
      ∃ t, exec (.regLoad x) s = .next t ∧ TookFault (.outOfBoundsAccess first) t) ∧
    (n ≠ 0#4 → 4096 < s.index.toNat + n.toNat →
      ∃ t, exec (.draw x y n) s = .next t ∧ TookFault (.outOfBoundsAccess first) t)

/-! ## Display -/

/-- 43_display.md R160: every pixel false, no present event. (That it does not present is the spec's own choice,
92_eei_decisions.md D19; the event list is the model's, log 10.) -/
def Obligations.ClearScreenClearsEveryPixel : Prop :=
  ∀ s : State,
    ∃ t, exec .clearScreen s = .next t ∧ (∀ r c, t.fb.get r c = false) ∧ OnlyFb s t

/-- 43_display.md R161, R162: a Draw whose bytes exist toggles exactly the pixels of the grid its sprite has a 1 bit on, sets
the flag register to 1 exactly when one of them was set, and presents the frame once; nothing else changes. The details are
the spec's own choice (92_eei_decisions.md D14, log 16); the list of present events is the model's (log 10). -/
def Obligations.DrawTogglesTheSprite : Prop :=
  ∀ (x y : Reg) (n : BitVec 4) (s : State), n = 0#4 ∨ s.index.toNat + n.toNat ≤ 4096 →
    ∃ t, exec (.draw x y n) s = .next t ∧
      (∀ r c, r < 32 → c < 64 → t.fb.get r c = (s.fb.get r c ^^ spriteBitAt s x y n r c)) ∧
      ((∃ r c, r < 32 ∧ c < 64 ∧ spriteBitAt s x y n r c = true ∧ s.fb.get r c = true) → t.reg 15 = 1#8) ∧
      ((¬ ∃ r c, r < 32 ∧ c < 64 ∧ spriteBitAt s x y n r c = true ∧ s.fb.get r c = true) → t.reg 15 = 0#8) ∧
      t.presented = (t.fb, s.fbPrev) :: s.presented ∧ t.fbPrev = t.fb ∧
      SameRegsBut [15] s t ∧ OnlyDrawn s t

/-- 43_display.md R162 (h), (i): the same sprite drawn twice at the same origin restores the frame, and from an all-false
frame the second Draw collides when the first lit a pixel. (Details of Draw: 92_eei_decisions.md D14, log 16.) -/
def Obligations.DrawTwiceRestoresTheFrame : Prop :=
  ∀ (x y : Reg) (n : BitVec 4) (s t : State), n = 0#4 ∨ s.index.toNat + n.toNat ≤ 4096 →
    exec (.draw x y n) s = .next t →
    ∃ u, exec (.draw x y n) (s.setFb t.fb) = .next u ∧ u.fb = s.fb ∧
      (s.fb = Frame.blank → t.fb ≠ Frame.blank → u.reg 15 = 1#8)

/-! ## Keys and timers -/

/-- 44_keys_timers.md R170, R171, R176: the two key skips test the key selected by the low nibble of `x[X]` in this cycle's
sample (the low nibble is the spec's own choice, 92_eei_decisions.md D11, log 13). -/
def Obligations.KeySkipsTestTheSelectedKey : Prop :=
  ∀ (x : Reg) (s : State),
    (∃ t, exec (.skipKeyEq x) s = .next t ∧ OnlyPc s t ∧
      (s.inp.keys.getLsbD ((s.reg x).toNat % 16) = true → t.pc = s.pc + 2#16) ∧
      (s.inp.keys.getLsbD ((s.reg x).toNat % 16) = false → t.pc = s.pc)) ∧
    (∃ t, exec (.skipKeyNe x) s = .next t ∧ OnlyPc s t ∧
      (s.inp.keys.getLsbD ((s.reg x).toNat % 16) = false → t.pc = s.pc + 2#16) ∧
      (s.inp.keys.getLsbD ((s.reg x).toNat % 16) = true → t.pc = s.pc))

/-- 44_keys_timers.md R172: with no key held GetKey goes back to its own address and writes nothing; else it stores the lowest
held key. -/
def Obligations.GetKeyWaitsOrTakesTheLowestKey : Prop :=
  ∀ (x : Reg) (s : State),
    (s.inp.keys = 0#16 →
      ∃ t, exec (.getKey x) s = .next t ∧ t.pc = s.pc - 2#16 ∧ OnlyPc s t) ∧
    (∀ k, s.inp.keys.getLsbD k = true → (∀ j, j < k → s.inp.keys.getLsbD j = false) →
      ∃ t, exec (.getKey x) s = .next t ∧ (t.reg x).toNat = k ∧ SameRegsBut [x] s t ∧ OnlyRegs s t)

/-- 44_keys_timers.md R173 to R175, 10_state.md R46: GetDelay reads `DT`, SetDelay and SetSound write their timers, and SetSound
drives the tone of a running machine. -/
def Obligations.TimerInstructionsMoveTheTimers : Prop :=
  ∀ (x : Reg) (s : State),
    (∃ t, exec (.getDelay x) s = .next t ∧ t.reg x = s.dt ∧ SameRegsBut [x] s t ∧ OnlyRegs s t) ∧
    (∃ t, exec (.setDelay x) s = .next t ∧ t.dt = s.reg x ∧ OnlyDt s t) ∧
    (∃ t, exec (.setSound x) s = .next t ∧ t.st = s.reg x ∧ OnlySt s t ∧
      (s.run = .running → (t.tone = true ↔ s.reg x ≠ 0#8)))
end

