-- ==== Sys2Proof/Laws/Decode.lean ====
section
/-!
SUPPORT. Instruction words as numbers, and the fields of the words the encoder makes: one lemma per field per format
(spec/30_encoding.md R71, R72).
-/

namespace Sys2Proof

theorem toNat_append_eq {m n : Nat} (a : BitVec m) (b : BitVec n) :
    (a ++ b).toNat = a.toNat * 2 ^ n + b.toNat := by
  rw [BitVec.toNat_append, ← Nat.shiftLeft_add_eq_or_of_lt b.isLt, Nat.shiftLeft_eq]

@[simp] theorem regBits_toNat (x : Reg) : (regBits x).toNat = x.val := rfl

/-! ## Fields as numbers -/

theorem fieldOp_toNat (w : Word) : (fieldOp w).toNat = w.toNat / 4096 := by
  have := w.isLt
  simp only [fieldOp, BitVec.extractLsb'_toNat, Nat.shiftRight_eq_div_pow]
  omega

theorem fieldX_val (w : Word) : (fieldX w).val = w.toNat / 256 % 16 := by
  show (w.extractLsb' 8 4).toNat = _
  simp only [BitVec.extractLsb'_toNat, Nat.shiftRight_eq_div_pow]

theorem fieldY_val (w : Word) : (fieldY w).val = w.toNat / 16 % 16 := by
  show (w.extractLsb' 4 4).toNat = _
  simp only [BitVec.extractLsb'_toNat, Nat.shiftRight_eq_div_pow]

theorem fieldN_toNat (w : Word) : (fieldN w).toNat = w.toNat % 16 := by
  simp only [fieldN, BitVec.extractLsb'_toNat, Nat.shiftRight_zero]

theorem fieldNN_toNat (w : Word) : (fieldNN w).toNat = w.toNat % 256 := by
  simp only [fieldNN, BitVec.extractLsb'_toNat, Nat.shiftRight_zero]

theorem fieldNNN_toNat (w : Word) : (fieldNNN w).toNat = w.toNat % 4096 := by
  simp only [fieldNNN, BitVec.extractLsb'_toNat, Nat.shiftRight_zero]

theorem highByte_toNat (w : Word) : (highByte w).toNat = w.toNat / 256 := by
  have := w.isLt
  simp only [highByte, BitVec.extractLsb'_toNat, Nat.shiftRight_eq_div_pow]
  omega

theorem lowByte_toNat (w : Word) : (lowByte w).toNat = w.toNat % 256 := by
  simp only [lowByte, BitVec.extractLsb'_toNat, Nat.shiftRight_zero]

/-- The two bytes of a word, in memory order, make the word (20_memory.md R53, R55). -/
theorem wordOfBytes_bytes (w : Word) : wordOfBytes (highByte w) (lowByte w) = w := by
  apply BitVec.eq_of_toNat_eq
  have h := toNat_append_eq (highByte w) (lowByte w)
  rw [highByte_toNat, lowByte_toNat] at h
  rw [wordOfBytes, h]
  omega

/-! ## Words of the formats as numbers -/

theorem encodeNNN_toNat (op : BitVec 4) (nnn : BitVec 12) :
    (encodeNNN op nnn).toNat = op.toNat * 4096 + nnn.toNat := toNat_append_eq op nnn

theorem encodeXNN_toNat (op : BitVec 4) (x : Reg) (nn : Byte) :
    (encodeXNN op x nn).toNat = op.toNat * 4096 + x.val * 256 + nn.toNat := by
  have h1 := toNat_append_eq (op ++ regBits x) nn
  rw [toNat_append_eq op (regBits x), regBits_toNat] at h1
  exact h1.trans (by omega)

theorem encodeX_toNat (op : BitVec 4) (x : Reg) (sub : Byte) :
    (encodeX op x sub).toNat = op.toNat * 4096 + x.val * 256 + sub.toNat := encodeXNN_toNat op x sub

theorem encodeXYN_toNat (op : BitVec 4) (x y : Reg) (n : BitVec 4) :
    (encodeXYN op x y n).toNat = op.toNat * 4096 + x.val * 256 + y.val * 16 + n.toNat := by
  have h1 := toNat_append_eq (op ++ regBits x ++ regBits y) n
  rw [toNat_append_eq (op ++ regBits x) (regBits y), toNat_append_eq op (regBits x), regBits_toNat, regBits_toNat]
    at h1
  exact h1.trans (by omega)

/-! ## Fields of the encoder's words -/

@[simp] theorem fieldOp_encodeNNN (op : BitVec 4) (nnn : BitVec 12) : fieldOp (encodeNNN op nnn) = op :=
  BitVec.eq_of_toNat_eq (by rw [fieldOp_toNat, encodeNNN_toNat]; omega)

@[simp] theorem fieldNNN_encodeNNN (op : BitVec 4) (nnn : BitVec 12) : fieldNNN (encodeNNN op nnn) = nnn :=
  BitVec.eq_of_toNat_eq (by rw [fieldNNN_toNat, encodeNNN_toNat]; omega)

@[simp] theorem fieldOp_encodeXNN (op : BitVec 4) (x : Reg) (nn : Byte) : fieldOp (encodeXNN op x nn) = op :=
  BitVec.eq_of_toNat_eq (by rw [fieldOp_toNat, encodeXNN_toNat]; omega)

@[simp] theorem fieldX_encodeXNN (op : BitVec 4) (x : Reg) (nn : Byte) : fieldX (encodeXNN op x nn) = x :=
  Fin.ext (by rw [fieldX_val, encodeXNN_toNat]; omega)

@[simp] theorem fieldNN_encodeXNN (op : BitVec 4) (x : Reg) (nn : Byte) : fieldNN (encodeXNN op x nn) = nn :=
  BitVec.eq_of_toNat_eq (by rw [fieldNN_toNat, encodeXNN_toNat]; omega)

@[simp] theorem fieldOp_encodeX (op : BitVec 4) (x : Reg) (sub : Byte) : fieldOp (encodeX op x sub) = op :=
  fieldOp_encodeXNN op x sub

@[simp] theorem fieldX_encodeX (op : BitVec 4) (x : Reg) (sub : Byte) : fieldX (encodeX op x sub) = x :=
  fieldX_encodeXNN op x sub

@[simp] theorem fieldNN_encodeX (op : BitVec 4) (x : Reg) (sub : Byte) : fieldNN (encodeX op x sub) = sub :=
  fieldNN_encodeXNN op x sub

@[simp] theorem fieldOp_encodeXYN (op : BitVec 4) (x y : Reg) (n : BitVec 4) : fieldOp (encodeXYN op x y n) = op :=
  BitVec.eq_of_toNat_eq (by rw [fieldOp_toNat, encodeXYN_toNat]; omega)

@[simp] theorem fieldX_encodeXYN (op : BitVec 4) (x y : Reg) (n : BitVec 4) : fieldX (encodeXYN op x y n) = x :=
  Fin.ext (by rw [fieldX_val, encodeXYN_toNat]; omega)

@[simp] theorem fieldY_encodeXYN (op : BitVec 4) (x y : Reg) (n : BitVec 4) : fieldY (encodeXYN op x y n) = y :=
  Fin.ext (by rw [fieldY_val, encodeXYN_toNat]; omega)

@[simp] theorem fieldN_encodeXYN (op : BitVec 4) (x y : Reg) (n : BitVec 4) : fieldN (encodeXYN op x y n) = n :=
  BitVec.eq_of_toNat_eq (by rw [fieldN_toNat, encodeXYN_toNat]; omega)

/-! ## Rejection -/

/-- A word is rejected in one way only: by name, carrying the word (30_encoding.md R78). -/
theorem decode_error {w : Word} {e : DecodeError} (h : decode w = .error e) : e = .unknownInstruction w := by
  unfold decode decodeFixed decodeArith decodeKey decodeMisc at h
  repeat' split at h
  all_goals first
    | (simp only [Except.error.injEq] at h; exact h.symm)
    | simp at h

/-! ## Masks as fields: how a row of R74's table matches -/

theorem getLsbD_append_eq {m n : Nat} (a : BitVec m) (b : BitVec n) (i : Nat) :
    (a ++ b).getLsbD i = if i < n then b.getLsbD i else a.getLsbD (i - n) := by
  rw [BitVec.getLsbD_append]

theorem and_F000 (w : Word) : w &&& 0xF000#16 = fieldOp w ++ 0#12 := by
  apply BitVec.eq_of_getLsbD_eq
  intro i hi
  refine Eq.trans ?_ (getLsbD_append_eq (fieldOp w) 0#12 i).symm
  interval_cases i <;> simp [fieldOp]

theorem and_F00F (w : Word) : w &&& 0xF00F#16 = fieldOp w ++ 0#8 ++ fieldN w := by
  apply BitVec.eq_of_getLsbD_eq
  intro i hi
  refine Eq.trans ?_ (getLsbD_append_eq (fieldOp w ++ 0#8) (fieldN w) i).symm
  rw [getLsbD_append_eq]
  interval_cases i <;> simp [fieldOp, fieldN]

theorem and_F0FF (w : Word) : w &&& 0xF0FF#16 = fieldOp w ++ 0#4 ++ fieldNN w := by
  apply BitVec.eq_of_getLsbD_eq
  intro i hi
  refine Eq.trans ?_ (getLsbD_append_eq (fieldOp w ++ 0#4) (fieldNN w) i).symm
  rw [getLsbD_append_eq]
  interval_cases i <;> simp [fieldOp, fieldNN]

/-- A row with mask 0xF000 matches by the leading nibble. -/
theorem and_F000_toNat (w : Word) : (w &&& 0xF000#16).toNat = w.toNat / 4096 * 4096 := by
  rw [and_F000]
  exact (toNat_append_eq (fieldOp w) 0#12).trans (by rw [fieldOp_toNat]; simp)

/-- A row with mask 0xF00F matches by the leading and the trailing nibble. -/
theorem and_F00F_toNat (w : Word) : (w &&& 0xF00F#16).toNat = w.toNat / 4096 * 4096 + w.toNat % 16 := by
  rw [and_F00F]
  have h := toNat_append_eq (fieldOp w ++ 0#8) (fieldN w)
  rw [toNat_append_eq (fieldOp w) 0#8, fieldOp_toNat, fieldN_toNat] at h
  exact h.trans (by simp; omega)

/-- A row with mask 0xF0FF matches by the leading nibble and the low byte. -/
theorem and_F0FF_toNat (w : Word) : (w &&& 0xF0FF#16).toNat = w.toNat / 4096 * 4096 + w.toNat % 256 := by
  rw [and_F0FF]
  have h := toNat_append_eq (fieldOp w ++ 0#4) (fieldNN w)
  rw [toNat_append_eq (fieldOp w) 0#4, fieldOp_toNat, fieldNN_toNat] at h
  exact h.trans (by simp; omega)

end Sys2Proof
end

