-- ==== Sys2Proof/Laws/State.lean ====
section
/-!
SUPPORT. One lemma per field per named update of State, each true by rfl, so that no proof unfolds a record update.
-/

namespace Sys2Proof.Machine

/-! ### State.setReg -/

@[simp] theorem State.setReg_regs (s : State) (r : Reg) (v : Byte) : (s.setReg r v).regs = s.regs.set r.val v := rfl
@[simp] theorem State.setReg_index (s : State) (r : Reg) (v : Byte) : (s.setReg r v).index = s.index := rfl
@[simp] theorem State.setReg_pc (s : State) (r : Reg) (v : Byte) : (s.setReg r v).pc = s.pc := rfl
@[simp] theorem State.setReg_stack (s : State) (r : Reg) (v : Byte) : (s.setReg r v).stack = s.stack := rfl
@[simp] theorem State.setReg_dt (s : State) (r : Reg) (v : Byte) : (s.setReg r v).dt = s.dt := rfl
@[simp] theorem State.setReg_st (s : State) (r : Reg) (v : Byte) : (s.setReg r v).st = s.st := rfl
@[simp] theorem State.setReg_fb (s : State) (r : Reg) (v : Byte) : (s.setReg r v).fb = s.fb := rfl
@[simp] theorem State.setReg_fbPrev (s : State) (r : Reg) (v : Byte) : (s.setReg r v).fbPrev = s.fbPrev := rfl
@[simp] theorem State.setReg_mem (s : State) (r : Reg) (v : Byte) : (s.setReg r v).mem = s.mem := rfl
@[simp] theorem State.setReg_run (s : State) (r : Reg) (v : Byte) : (s.setReg r v).run = s.run := rfl
@[simp] theorem State.setReg_fault (s : State) (r : Reg) (v : Byte) : (s.setReg r v).fault = s.fault := rfl
@[simp] theorem State.setReg_cfg (s : State) (r : Reg) (v : Byte) : (s.setReg r v).cfg = s.cfg := rfl
@[simp] theorem State.setReg_params (s : State) (r : Reg) (v : Byte) : (s.setReg r v).params = s.params := rfl
@[simp] theorem State.setReg_inp (s : State) (r : Reg) (v : Byte) : (s.setReg r v).inp = s.inp := rfl
@[simp] theorem State.setReg_env (s : State) (r : Reg) (v : Byte) : (s.setReg r v).env = s.env := rfl
@[simp] theorem State.setReg_draws (s : State) (r : Reg) (v : Byte) : (s.setReg r v).draws = s.draws := rfl
@[simp] theorem State.setReg_presented (s : State) (r : Reg) (v : Byte) : (s.setReg r v).presented = s.presented := rfl

/-! ### State.setIndex -/

@[simp] theorem State.setIndex_regs (s : State) (v : Word) : (s.setIndex v).regs = s.regs := rfl
@[simp] theorem State.setIndex_index (s : State) (v : Word) : (s.setIndex v).index = v := rfl
@[simp] theorem State.setIndex_pc (s : State) (v : Word) : (s.setIndex v).pc = s.pc := rfl
@[simp] theorem State.setIndex_stack (s : State) (v : Word) : (s.setIndex v).stack = s.stack := rfl
@[simp] theorem State.setIndex_dt (s : State) (v : Word) : (s.setIndex v).dt = s.dt := rfl
@[simp] theorem State.setIndex_st (s : State) (v : Word) : (s.setIndex v).st = s.st := rfl
@[simp] theorem State.setIndex_fb (s : State) (v : Word) : (s.setIndex v).fb = s.fb := rfl
@[simp] theorem State.setIndex_fbPrev (s : State) (v : Word) : (s.setIndex v).fbPrev = s.fbPrev := rfl
@[simp] theorem State.setIndex_mem (s : State) (v : Word) : (s.setIndex v).mem = s.mem := rfl
@[simp] theorem State.setIndex_run (s : State) (v : Word) : (s.setIndex v).run = s.run := rfl
@[simp] theorem State.setIndex_fault (s : State) (v : Word) : (s.setIndex v).fault = s.fault := rfl
@[simp] theorem State.setIndex_cfg (s : State) (v : Word) : (s.setIndex v).cfg = s.cfg := rfl
@[simp] theorem State.setIndex_params (s : State) (v : Word) : (s.setIndex v).params = s.params := rfl
@[simp] theorem State.setIndex_inp (s : State) (v : Word) : (s.setIndex v).inp = s.inp := rfl
@[simp] theorem State.setIndex_env (s : State) (v : Word) : (s.setIndex v).env = s.env := rfl
@[simp] theorem State.setIndex_draws (s : State) (v : Word) : (s.setIndex v).draws = s.draws := rfl
@[simp] theorem State.setIndex_presented (s : State) (v : Word) : (s.setIndex v).presented = s.presented := rfl

/-! ### State.setPc -/

@[simp] theorem State.setPc_regs (s : State) (v : Word) : (s.setPc v).regs = s.regs := rfl
@[simp] theorem State.setPc_index (s : State) (v : Word) : (s.setPc v).index = s.index := rfl
@[simp] theorem State.setPc_pc (s : State) (v : Word) : (s.setPc v).pc = v := rfl
@[simp] theorem State.setPc_stack (s : State) (v : Word) : (s.setPc v).stack = s.stack := rfl
@[simp] theorem State.setPc_dt (s : State) (v : Word) : (s.setPc v).dt = s.dt := rfl
@[simp] theorem State.setPc_st (s : State) (v : Word) : (s.setPc v).st = s.st := rfl
@[simp] theorem State.setPc_fb (s : State) (v : Word) : (s.setPc v).fb = s.fb := rfl
@[simp] theorem State.setPc_fbPrev (s : State) (v : Word) : (s.setPc v).fbPrev = s.fbPrev := rfl
@[simp] theorem State.setPc_mem (s : State) (v : Word) : (s.setPc v).mem = s.mem := rfl
@[simp] theorem State.setPc_run (s : State) (v : Word) : (s.setPc v).run = s.run := rfl
@[simp] theorem State.setPc_fault (s : State) (v : Word) : (s.setPc v).fault = s.fault := rfl
@[simp] theorem State.setPc_cfg (s : State) (v : Word) : (s.setPc v).cfg = s.cfg := rfl
@[simp] theorem State.setPc_params (s : State) (v : Word) : (s.setPc v).params = s.params := rfl
@[simp] theorem State.setPc_inp (s : State) (v : Word) : (s.setPc v).inp = s.inp := rfl
@[simp] theorem State.setPc_env (s : State) (v : Word) : (s.setPc v).env = s.env := rfl
@[simp] theorem State.setPc_draws (s : State) (v : Word) : (s.setPc v).draws = s.draws := rfl
@[simp] theorem State.setPc_presented (s : State) (v : Word) : (s.setPc v).presented = s.presented := rfl

/-! ### State.setStack -/

@[simp] theorem State.setStack_regs (s : State) (v : List Word) : (s.setStack v).regs = s.regs := rfl
@[simp] theorem State.setStack_index (s : State) (v : List Word) : (s.setStack v).index = s.index := rfl
@[simp] theorem State.setStack_pc (s : State) (v : List Word) : (s.setStack v).pc = s.pc := rfl
@[simp] theorem State.setStack_stack (s : State) (v : List Word) : (s.setStack v).stack = v := rfl
@[simp] theorem State.setStack_dt (s : State) (v : List Word) : (s.setStack v).dt = s.dt := rfl
@[simp] theorem State.setStack_st (s : State) (v : List Word) : (s.setStack v).st = s.st := rfl
@[simp] theorem State.setStack_fb (s : State) (v : List Word) : (s.setStack v).fb = s.fb := rfl
@[simp] theorem State.setStack_fbPrev (s : State) (v : List Word) : (s.setStack v).fbPrev = s.fbPrev := rfl
@[simp] theorem State.setStack_mem (s : State) (v : List Word) : (s.setStack v).mem = s.mem := rfl
@[simp] theorem State.setStack_run (s : State) (v : List Word) : (s.setStack v).run = s.run := rfl
@[simp] theorem State.setStack_fault (s : State) (v : List Word) : (s.setStack v).fault = s.fault := rfl
@[simp] theorem State.setStack_cfg (s : State) (v : List Word) : (s.setStack v).cfg = s.cfg := rfl
@[simp] theorem State.setStack_params (s : State) (v : List Word) : (s.setStack v).params = s.params := rfl
@[simp] theorem State.setStack_inp (s : State) (v : List Word) : (s.setStack v).inp = s.inp := rfl
@[simp] theorem State.setStack_env (s : State) (v : List Word) : (s.setStack v).env = s.env := rfl
@[simp] theorem State.setStack_draws (s : State) (v : List Word) : (s.setStack v).draws = s.draws := rfl
@[simp] theorem State.setStack_presented (s : State) (v : List Word) : (s.setStack v).presented = s.presented := rfl

/-! ### State.setDt -/

@[simp] theorem State.setDt_regs (s : State) (v : Byte) : (s.setDt v).regs = s.regs := rfl
@[simp] theorem State.setDt_index (s : State) (v : Byte) : (s.setDt v).index = s.index := rfl
@[simp] theorem State.setDt_pc (s : State) (v : Byte) : (s.setDt v).pc = s.pc := rfl
@[simp] theorem State.setDt_stack (s : State) (v : Byte) : (s.setDt v).stack = s.stack := rfl
@[simp] theorem State.setDt_dt (s : State) (v : Byte) : (s.setDt v).dt = v := rfl
@[simp] theorem State.setDt_st (s : State) (v : Byte) : (s.setDt v).st = s.st := rfl
@[simp] theorem State.setDt_fb (s : State) (v : Byte) : (s.setDt v).fb = s.fb := rfl
@[simp] theorem State.setDt_fbPrev (s : State) (v : Byte) : (s.setDt v).fbPrev = s.fbPrev := rfl
@[simp] theorem State.setDt_mem (s : State) (v : Byte) : (s.setDt v).mem = s.mem := rfl
@[simp] theorem State.setDt_run (s : State) (v : Byte) : (s.setDt v).run = s.run := rfl
@[simp] theorem State.setDt_fault (s : State) (v : Byte) : (s.setDt v).fault = s.fault := rfl
@[simp] theorem State.setDt_cfg (s : State) (v : Byte) : (s.setDt v).cfg = s.cfg := rfl
@[simp] theorem State.setDt_params (s : State) (v : Byte) : (s.setDt v).params = s.params := rfl
@[simp] theorem State.setDt_inp (s : State) (v : Byte) : (s.setDt v).inp = s.inp := rfl
@[simp] theorem State.setDt_env (s : State) (v : Byte) : (s.setDt v).env = s.env := rfl
@[simp] theorem State.setDt_draws (s : State) (v : Byte) : (s.setDt v).draws = s.draws := rfl
@[simp] theorem State.setDt_presented (s : State) (v : Byte) : (s.setDt v).presented = s.presented := rfl

/-! ### State.setSt -/

@[simp] theorem State.setSt_regs (s : State) (v : Byte) : (s.setSt v).regs = s.regs := rfl
@[simp] theorem State.setSt_index (s : State) (v : Byte) : (s.setSt v).index = s.index := rfl
@[simp] theorem State.setSt_pc (s : State) (v : Byte) : (s.setSt v).pc = s.pc := rfl
@[simp] theorem State.setSt_stack (s : State) (v : Byte) : (s.setSt v).stack = s.stack := rfl
@[simp] theorem State.setSt_dt (s : State) (v : Byte) : (s.setSt v).dt = s.dt := rfl
@[simp] theorem State.setSt_st (s : State) (v : Byte) : (s.setSt v).st = v := rfl
@[simp] theorem State.setSt_fb (s : State) (v : Byte) : (s.setSt v).fb = s.fb := rfl
@[simp] theorem State.setSt_fbPrev (s : State) (v : Byte) : (s.setSt v).fbPrev = s.fbPrev := rfl
@[simp] theorem State.setSt_mem (s : State) (v : Byte) : (s.setSt v).mem = s.mem := rfl
@[simp] theorem State.setSt_run (s : State) (v : Byte) : (s.setSt v).run = s.run := rfl
@[simp] theorem State.setSt_fault (s : State) (v : Byte) : (s.setSt v).fault = s.fault := rfl
@[simp] theorem State.setSt_cfg (s : State) (v : Byte) : (s.setSt v).cfg = s.cfg := rfl
@[simp] theorem State.setSt_params (s : State) (v : Byte) : (s.setSt v).params = s.params := rfl
@[simp] theorem State.setSt_inp (s : State) (v : Byte) : (s.setSt v).inp = s.inp := rfl
@[simp] theorem State.setSt_env (s : State) (v : Byte) : (s.setSt v).env = s.env := rfl
@[simp] theorem State.setSt_draws (s : State) (v : Byte) : (s.setSt v).draws = s.draws := rfl
@[simp] theorem State.setSt_presented (s : State) (v : Byte) : (s.setSt v).presented = s.presented := rfl

/-! ### State.setFb -/

@[simp] theorem State.setFb_regs (s : State) (v : Frame) : (s.setFb v).regs = s.regs := rfl
@[simp] theorem State.setFb_index (s : State) (v : Frame) : (s.setFb v).index = s.index := rfl
@[simp] theorem State.setFb_pc (s : State) (v : Frame) : (s.setFb v).pc = s.pc := rfl
@[simp] theorem State.setFb_stack (s : State) (v : Frame) : (s.setFb v).stack = s.stack := rfl
@[simp] theorem State.setFb_dt (s : State) (v : Frame) : (s.setFb v).dt = s.dt := rfl
@[simp] theorem State.setFb_st (s : State) (v : Frame) : (s.setFb v).st = s.st := rfl
@[simp] theorem State.setFb_fb (s : State) (v : Frame) : (s.setFb v).fb = v := rfl
@[simp] theorem State.setFb_fbPrev (s : State) (v : Frame) : (s.setFb v).fbPrev = s.fbPrev := rfl
@[simp] theorem State.setFb_mem (s : State) (v : Frame) : (s.setFb v).mem = s.mem := rfl
@[simp] theorem State.setFb_run (s : State) (v : Frame) : (s.setFb v).run = s.run := rfl
@[simp] theorem State.setFb_fault (s : State) (v : Frame) : (s.setFb v).fault = s.fault := rfl
@[simp] theorem State.setFb_cfg (s : State) (v : Frame) : (s.setFb v).cfg = s.cfg := rfl
@[simp] theorem State.setFb_params (s : State) (v : Frame) : (s.setFb v).params = s.params := rfl
@[simp] theorem State.setFb_inp (s : State) (v : Frame) : (s.setFb v).inp = s.inp := rfl
@[simp] theorem State.setFb_env (s : State) (v : Frame) : (s.setFb v).env = s.env := rfl
@[simp] theorem State.setFb_draws (s : State) (v : Frame) : (s.setFb v).draws = s.draws := rfl
@[simp] theorem State.setFb_presented (s : State) (v : Frame) : (s.setFb v).presented = s.presented := rfl

/-! ### State.setMem -/

@[simp] theorem State.setMem_regs (s : State) (v : List Host.Cell) : (s.setMem v).regs = s.regs := rfl
@[simp] theorem State.setMem_index (s : State) (v : List Host.Cell) : (s.setMem v).index = s.index := rfl
@[simp] theorem State.setMem_pc (s : State) (v : List Host.Cell) : (s.setMem v).pc = s.pc := rfl
@[simp] theorem State.setMem_stack (s : State) (v : List Host.Cell) : (s.setMem v).stack = s.stack := rfl
@[simp] theorem State.setMem_dt (s : State) (v : List Host.Cell) : (s.setMem v).dt = s.dt := rfl
@[simp] theorem State.setMem_st (s : State) (v : List Host.Cell) : (s.setMem v).st = s.st := rfl
@[simp] theorem State.setMem_fb (s : State) (v : List Host.Cell) : (s.setMem v).fb = s.fb := rfl
@[simp] theorem State.setMem_fbPrev (s : State) (v : List Host.Cell) : (s.setMem v).fbPrev = s.fbPrev := rfl
@[simp] theorem State.setMem_mem (s : State) (v : List Host.Cell) : (s.setMem v).mem = v := rfl
@[simp] theorem State.setMem_run (s : State) (v : List Host.Cell) : (s.setMem v).run = s.run := rfl
@[simp] theorem State.setMem_fault (s : State) (v : List Host.Cell) : (s.setMem v).fault = s.fault := rfl
@[simp] theorem State.setMem_cfg (s : State) (v : List Host.Cell) : (s.setMem v).cfg = s.cfg := rfl
@[simp] theorem State.setMem_params (s : State) (v : List Host.Cell) : (s.setMem v).params = s.params := rfl
@[simp] theorem State.setMem_inp (s : State) (v : List Host.Cell) : (s.setMem v).inp = s.inp := rfl
@[simp] theorem State.setMem_env (s : State) (v : List Host.Cell) : (s.setMem v).env = s.env := rfl
@[simp] theorem State.setMem_draws (s : State) (v : List Host.Cell) : (s.setMem v).draws = s.draws := rfl
@[simp] theorem State.setMem_presented (s : State) (v : List Host.Cell) : (s.setMem v).presented = s.presented := rfl

/-! ### State.setFlag -/

@[simp] theorem State.setFlag_regs (s : State) (b : Bool) :
    (s.setFlag b).regs = s.regs.set flagReg.val (if b then 1#8 else 0#8) := rfl
@[simp] theorem State.setFlag_index (s : State) (b : Bool) : (s.setFlag b).index = s.index := rfl
@[simp] theorem State.setFlag_pc (s : State) (b : Bool) : (s.setFlag b).pc = s.pc := rfl
@[simp] theorem State.setFlag_stack (s : State) (b : Bool) : (s.setFlag b).stack = s.stack := rfl
@[simp] theorem State.setFlag_dt (s : State) (b : Bool) : (s.setFlag b).dt = s.dt := rfl
@[simp] theorem State.setFlag_st (s : State) (b : Bool) : (s.setFlag b).st = s.st := rfl
@[simp] theorem State.setFlag_fb (s : State) (b : Bool) : (s.setFlag b).fb = s.fb := rfl
@[simp] theorem State.setFlag_fbPrev (s : State) (b : Bool) : (s.setFlag b).fbPrev = s.fbPrev := rfl
@[simp] theorem State.setFlag_mem (s : State) (b : Bool) : (s.setFlag b).mem = s.mem := rfl
@[simp] theorem State.setFlag_run (s : State) (b : Bool) : (s.setFlag b).run = s.run := rfl
@[simp] theorem State.setFlag_fault (s : State) (b : Bool) : (s.setFlag b).fault = s.fault := rfl
@[simp] theorem State.setFlag_cfg (s : State) (b : Bool) : (s.setFlag b).cfg = s.cfg := rfl
@[simp] theorem State.setFlag_params (s : State) (b : Bool) : (s.setFlag b).params = s.params := rfl
@[simp] theorem State.setFlag_inp (s : State) (b : Bool) : (s.setFlag b).inp = s.inp := rfl
@[simp] theorem State.setFlag_env (s : State) (b : Bool) : (s.setFlag b).env = s.env := rfl
@[simp] theorem State.setFlag_draws (s : State) (b : Bool) : (s.setFlag b).draws = s.draws := rfl
@[simp] theorem State.setFlag_presented (s : State) (b : Bool) : (s.setFlag b).presented = s.presented := rfl

/-! ### present, haltOnQuit -/

@[simp] theorem present_regs (s : State) : (present s).regs = s.regs := rfl
@[simp] theorem present_index (s : State) : (present s).index = s.index := rfl
@[simp] theorem present_pc (s : State) : (present s).pc = s.pc := rfl
@[simp] theorem present_stack (s : State) : (present s).stack = s.stack := rfl
@[simp] theorem present_dt (s : State) : (present s).dt = s.dt := rfl
@[simp] theorem present_st (s : State) : (present s).st = s.st := rfl
@[simp] theorem present_fb (s : State) : (present s).fb = s.fb := rfl
@[simp] theorem present_fbPrev (s : State) : (present s).fbPrev = s.fb := rfl
@[simp] theorem present_mem (s : State) : (present s).mem = s.mem := rfl
@[simp] theorem present_run (s : State) : (present s).run = s.run := rfl
@[simp] theorem present_fault (s : State) : (present s).fault = s.fault := rfl
@[simp] theorem present_cfg (s : State) : (present s).cfg = s.cfg := rfl
@[simp] theorem present_params (s : State) : (present s).params = s.params := rfl
@[simp] theorem present_inp (s : State) : (present s).inp = s.inp := rfl
@[simp] theorem present_env (s : State) : (present s).env = s.env := rfl
@[simp] theorem present_draws (s : State) : (present s).draws = s.draws := rfl
@[simp] theorem present_presented (s : State) : (present s).presented = (s.fb, s.fbPrev) :: s.presented := rfl

@[simp] theorem haltOnQuit_regs (s : State) : (haltOnQuit s).regs = s.regs := rfl
@[simp] theorem haltOnQuit_index (s : State) : (haltOnQuit s).index = s.index := rfl
@[simp] theorem haltOnQuit_pc (s : State) : (haltOnQuit s).pc = s.pc := rfl
@[simp] theorem haltOnQuit_stack (s : State) : (haltOnQuit s).stack = s.stack := rfl
@[simp] theorem haltOnQuit_dt (s : State) : (haltOnQuit s).dt = s.dt := rfl
@[simp] theorem haltOnQuit_st (s : State) : (haltOnQuit s).st = s.st := rfl
@[simp] theorem haltOnQuit_fb (s : State) : (haltOnQuit s).fb = s.fb := rfl
@[simp] theorem haltOnQuit_fbPrev (s : State) : (haltOnQuit s).fbPrev = s.fbPrev := rfl
@[simp] theorem haltOnQuit_mem (s : State) : (haltOnQuit s).mem = s.mem := rfl
@[simp] theorem haltOnQuit_run (s : State) : (haltOnQuit s).run = .halted := rfl
@[simp] theorem haltOnQuit_fault (s : State) : (haltOnQuit s).fault = s.fault := rfl
@[simp] theorem haltOnQuit_cfg (s : State) : (haltOnQuit s).cfg = s.cfg := rfl
@[simp] theorem haltOnQuit_params (s : State) : (haltOnQuit s).params = s.params := rfl
@[simp] theorem haltOnQuit_inp (s : State) : (haltOnQuit s).inp = s.inp := rfl
@[simp] theorem haltOnQuit_env (s : State) : (haltOnQuit s).env = s.env := rfl
@[simp] theorem haltOnQuit_draws (s : State) : (haltOnQuit s).draws = s.draws := rfl
@[simp] theorem haltOnQuit_presented (s : State) : (haltOnQuit s).presented = s.presented := rfl

/-! ### takeFault: what is not a free value (60_exceptions.md R185) -/

@[simp] theorem takeFault_run (f : Fault) (s : State) : (takeFault f s).run = .faulted := rfl
@[simp] theorem takeFault_fault (f : Fault) (s : State) : (takeFault f s).fault = some f := rfl
@[simp] theorem takeFault_cfg (f : Fault) (s : State) : (takeFault f s).cfg = s.cfg := rfl
@[simp] theorem takeFault_params (f : Fault) (s : State) : (takeFault f s).params = s.params := rfl
@[simp] theorem takeFault_inp (f : Fault) (s : State) : (takeFault f s).inp = s.inp := rfl
@[simp] theorem takeFault_env (f : Fault) (s : State) : (takeFault f s).env = s.env := rfl
@[simp] theorem takeFault_draws (f : Fault) (s : State) : (takeFault f s).draws = s.draws + 1 := rfl
@[simp] theorem takeFault_presented (f : Fault) (s : State) : (takeFault f s).presented = s.presented := rfl

/-! ### Reads through the updates -/

@[simp] theorem State.reg_setIndex (s : State) (v : Word) (r : Reg) : (s.setIndex v).reg r = s.reg r := rfl
@[simp] theorem State.reg_setPc (s : State) (v : Word) (r : Reg) : (s.setPc v).reg r = s.reg r := rfl
@[simp] theorem State.reg_setStack (s : State) (v : List Word) (r : Reg) : (s.setStack v).reg r = s.reg r := rfl
@[simp] theorem State.reg_setDt (s : State) (v : Byte) (r : Reg) : (s.setDt v).reg r = s.reg r := rfl
@[simp] theorem State.reg_setSt (s : State) (v : Byte) (r : Reg) : (s.setSt v).reg r = s.reg r := rfl
@[simp] theorem State.reg_setFb (s : State) (v : Frame) (r : Reg) : (s.setFb v).reg r = s.reg r := rfl
@[simp] theorem State.reg_setMem (s : State) (v : List Host.Cell) (r : Reg) : (s.setMem v).reg r = s.reg r := rfl
@[simp] theorem reg_present (s : State) (r : Reg) : (present s).reg r = s.reg r := rfl

@[simp] theorem State.byteAt_setReg (s : State) (r : Reg) (v : Byte) (a : Nat) :
    (s.setReg r v).byteAt a = s.byteAt a := rfl
@[simp] theorem State.byteAt_setFlag (s : State) (b : Bool) (a : Nat) : (s.setFlag b).byteAt a = s.byteAt a := rfl
@[simp] theorem State.byteAt_setIndex (s : State) (v : Word) (a : Nat) : (s.setIndex v).byteAt a = s.byteAt a := rfl
@[simp] theorem State.byteAt_setPc (s : State) (v : Word) (a : Nat) : (s.setPc v).byteAt a = s.byteAt a := rfl
@[simp] theorem State.byteAt_setStack (s : State) (v : List Word) (a : Nat) :
    (s.setStack v).byteAt a = s.byteAt a := rfl
@[simp] theorem State.byteAt_setDt (s : State) (v : Byte) (a : Nat) : (s.setDt v).byteAt a = s.byteAt a := rfl
@[simp] theorem State.byteAt_setSt (s : State) (v : Byte) (a : Nat) : (s.setSt v).byteAt a = s.byteAt a := rfl
@[simp] theorem State.byteAt_setFb (s : State) (v : Frame) (a : Nat) : (s.setFb v).byteAt a = s.byteAt a := rfl
@[simp] theorem byteAt_present (s : State) (a : Nat) : (present s).byteAt a = s.byteAt a := rfl

/-- A register reads back what was written to it, and every other register is unchanged (10_state.md R20). -/
theorem State.reg_setReg (s : State) (r q : Reg) (v : Byte) :
    (s.setReg r v).reg q = if q = r then v else s.reg q := by
  simp only [State.reg, State.setReg, Vector.getElem_set, Fin.ext_iff, eq_comm]

@[simp] theorem State.reg_setReg_same (s : State) (r : Reg) (v : Byte) : (s.setReg r v).reg r = v := by
  simp [State.reg_setReg]

theorem State.reg_setReg_other (s : State) {r q : Reg} (v : Byte) (h : q ≠ r) :
    (s.setReg r v).reg q = s.reg q := by
  simp [State.reg_setReg, h]

/-- The flag register after a flag write, and every other register unchanged. -/
theorem State.reg_setFlag (s : State) (b : Bool) (q : Reg) :
    (s.setFlag b).reg q = if q = 15 then (if b then 1#8 else 0#8) else s.reg q :=
  State.reg_setReg s 15 q _

end Sys2Proof.Machine
end

