-- ==== Sys2Proof/Laws/Frame.lean ====
section
/-!
SUPPORT. The framebuffer: pixels through a toggle, and what the drawing algorithm does to one pixel and to the collision
flag (spec/43_display.md R161, R162 (d), (e)).
-/

namespace Sys2Proof.Machine

theorem Frame.get_of_lt (f : Frame) {r c : Nat} (hr : r < 32) (hc : c < 64) : f.get r c = (f[r]'hr)[c]'hc := by
  rw [Frame.get, dif_pos ⟨hr, hc⟩]

/-- There is no pixel off the grid. -/
theorem Frame.get_off_grid (f : Frame) {r c : Nat} (h : ¬ (r < 32 ∧ c < 64)) : f.get r c = false := by
  rw [Frame.get, dif_neg h]

@[simp] theorem Frame.get_blank (r c : Nat) : Frame.blank.get r c = false := by
  unfold Frame.get Frame.blank
  split <;> simp

/-- Frames with the same pixels are equal. -/
theorem Frame.eq_of_get_eq {f g : Frame} (h : ∀ r c, r < 32 → c < 64 → f.get r c = g.get r c) : f = g := by
  apply Vector.ext
  intro r hr
  apply Vector.ext
  intro c hc
  have := h r c hr hc
  rwa [Frame.get_of_lt f hr hc, Frame.get_of_lt g hr hc] at this

theorem Frame.get_ofFun (px : Nat → Nat → Bool) {r c : Nat} (hr : r < 32) (hc : c < 64) :
    (Frame.ofFun px).get r c = px r c := by
  rw [Frame.get_of_lt _ hr hc]
  simp [Frame.ofFun]

/-- A toggle flips its pixel and leaves every other pixel alone. -/
theorem Frame.get_toggle (f : Frame) {y xx : Nat} (hy : y < 32) (hx : xx < 64) (r c : Nat) :
    (f.toggle y xx).get r c = (f.get r c ^^ decide (r = y ∧ c = xx)) := by
  by_cases h : r < 32 ∧ c < 64
  · obtain ⟨hr, hc⟩ := h
    rw [Frame.toggle, dif_pos ⟨hy, hx⟩, Frame.get_of_lt _ hr hc, Frame.get_of_lt _ hr hc]
    by_cases e1 : r = y
    · subst e1
      by_cases e2 : c = xx
      · subst e2
        simp
      · simp [e2, Ne.symm e2]
    · simp [e1, Ne.symm e1]
  · have : ¬ (r = y ∧ c = xx) := by omega
    rw [Frame.get_off_grid _ h, Frame.get_off_grid _ h]
    simp [this]

/-- One sprite bit on one pixel of the grid. -/
theorem get_drawPixel (y xx : Nat) (bit : Bool) (acc : Frame × Bool) {r c : Nat} (hr : r < 32) (hc : c < 64) :
    (drawPixel y xx bit acc).1.get r c = (acc.1.get r c ^^ (bit && decide (r = y ∧ c = xx))) := by
  unfold drawPixel
  split
  · have : ¬ (r = y ∧ c = xx) := by omega
    simp [this]
  · split
    · have : ¬ (r = y ∧ c = xx) := by omega
      simp [this]
    · cases bit
      · simp
      · simp [Frame.get_toggle acc.1 (show y < 32 by omega) (show xx < 64 by omega)]

/-- One sprite bit on the collision flag. -/
theorem hit_drawPixel (y xx : Nat) (bit : Bool) (acc : Frame × Bool) :
    (drawPixel y xx bit acc).2 = (acc.2 || (bit && acc.1.get y xx)) := by
  unfold drawPixel
  split
  · rw [Frame.get_off_grid _ (by omega)]
    simp
  · split
    · rw [Frame.get_off_grid _ (by omega)]
      simp
    · cases bit <;> simp

/-- Whether the first `n` columns of a sprite row put a 1 bit on column `c`. -/
def rowBit (x0 : Nat) (b : Byte) (n c : Nat) : Bool :=
  decide (x0 ≤ c ∧ c < x0 + n) && b.getLsbD (7 - (c - x0))

/-- A sprite row on one pixel. -/
theorem get_drawColumns (x0 y : Nat) (b : Byte) (n : Nat) (acc : Frame × Bool) {r c : Nat} (hr : r < 32)
    (hc : c < 64) :
    (drawColumns x0 y b n acc).1.get r c = (acc.1.get r c ^^ (decide (r = y) && rowBit x0 b n c)) := by
  induction n with
  | zero =>
    have : ¬ (x0 ≤ c ∧ c < x0 + 0) := by omega
    simp only [drawColumns, rowBit, this, decide_false, Bool.false_and, Bool.and_false, Bool.xor_false]
  | succ n ih =>
    rw [drawColumns, get_drawPixel _ _ _ _ hr hc, ih]
    simp only [rowBit]
    by_cases h1 : r = y
    · by_cases h2 : c = x0 + n
      · subst h1 h2
        simp
      · have e1 : (x0 ≤ c ∧ c < x0 + (n + 1)) ↔ (x0 ≤ c ∧ c < x0 + n) := by omega
        simp [h1, h2, e1]
    · simp [h1]

/-- A sprite row on the collision flag: some column with a 1 bit was set before. -/
theorem hit_drawColumns (x0 y : Nat) (b : Byte) (n : Nat) (acc : Frame × Bool) :
    (drawColumns x0 y b n acc).2 = true ↔
      acc.2 = true ∨ ∃ c, rowBit x0 b n c = true ∧ acc.1.get y c = true := by
  induction n with
  | zero =>
    simp only [drawColumns, rowBit]
    constructor
    · exact Or.inl
    · rintro (h | ⟨c, h, -⟩)
      · exact h
      · simp only [Bool.and_eq_true, decide_eq_true_eq] at h
        omega
  | succ n ih =>
    rw [drawColumns, hit_drawPixel, Bool.or_eq_true, ih]
    have hsucc : ∀ c, rowBit x0 b (n + 1) c = true ↔
        rowBit x0 b n c = true ∨ (c = x0 + n ∧ b.getLsbD (7 - n) = true) := by
      intro c
      simp only [rowBit, Bool.and_eq_true, decide_eq_true_eq]
      constructor
      · rintro ⟨h, hb⟩
        by_cases hc : c = x0 + n
        · subst hc
          exact Or.inr ⟨rfl, by simpa using hb⟩
        · exact Or.inl ⟨by omega, hb⟩
      · rintro (⟨h, hb⟩ | ⟨rfl, hb⟩)
        · exact ⟨by omega, hb⟩
        · exact ⟨by omega, by simpa using hb⟩
    have hpix : ((drawColumns x0 y b n acc).1.get y (x0 + n)) = acc.1.get y (x0 + n) := by
      by_cases hg : y < 32 ∧ x0 + n < 64
      · rw [get_drawColumns x0 y b n acc hg.1 hg.2]
        have : ¬ (x0 ≤ x0 + n ∧ x0 + n < x0 + n) := by omega
        simp [rowBit]
      · rw [Frame.get_off_grid _ hg, Frame.get_off_grid _ hg]
    rw [hpix, Bool.and_eq_true]
    constructor
    · rintro ((h | ⟨c, h, hc⟩) | ⟨hb, hc⟩)
      · exact Or.inl h
      · exact Or.inr ⟨c, (hsucc c).2 (Or.inl h), hc⟩
      · exact Or.inr ⟨x0 + n, (hsucc _).2 (Or.inr ⟨rfl, hb⟩), hc⟩
    · rintro (h | ⟨c, h, hc⟩)
      · exact Or.inl (Or.inl h)
      · rcases (hsucc c).1 h with h | ⟨rfl, hb⟩
        · exact Or.inl (Or.inr ⟨c, h, hc⟩)
        · exact Or.inr ⟨hb, hc⟩

/-- Whether a sprite drawn with its origin at row `y`, column `x0` puts a 1 bit on a pixel. -/
def spriteBit (x0 y : Nat) (sprite : List Byte) (r c : Nat) : Bool :=
  decide (y ≤ r ∧ r < y + sprite.length) && rowBit x0 (sprite.getD (r - y) 0#8) 8 c

theorem spriteBit_cons (x0 y : Nat) (b : Byte) (rest : List Byte) (r c : Nat) :
    spriteBit x0 y (b :: rest) r c =
      ((decide (r = y) && rowBit x0 b 8 c) || spriteBit x0 (y + 1) rest r c) := by
  simp only [spriteBit, List.length_cons]
  by_cases h : r = y
  · subst h
    simp
  · by_cases h2 : y + 1 ≤ r ∧ r < y + 1 + rest.length
    · have h3 : y ≤ r ∧ r < y + (rest.length + 1) := by omega
      rw [show r - y = (r - (y + 1)) + 1 by omega]
      simp [h, h2, h3]
    · have h3 : ¬ (y ≤ r ∧ r < y + (rest.length + 1)) := by omega
      simp only [h, h2, h3]
      rfl

/-- THE DRAWING ALGORITHM ON ONE PIXEL (43_display.md R161): the pixel is toggled exactly when the sprite has a 1 bit on
it. -/
theorem get_drawRows (x0 y : Nat) (sprite : List Byte) (acc : Frame × Bool) {r c : Nat} (hr : r < 32)
    (hc : c < 64) :
    (drawRows x0 y sprite acc).1.get r c = (acc.1.get r c ^^ spriteBit x0 y sprite r c) := by
  induction sprite generalizing y acc with
  | nil =>
    have : ¬ (y ≤ r ∧ r < y + 0) := by omega
    simp only [drawRows, spriteBit, List.length_nil, this, decide_false, Bool.false_and, Bool.xor_false]
  | cons b rest ih =>
    rw [drawRows, ih, drawRow, get_drawColumns _ _ _ _ _ hr hc, spriteBit_cons]
    by_cases h : r = y
    · subst h
      have : spriteBit x0 (r + 1) rest r c = false := by simp [spriteBit]
      simp [this]
    · simp [h]

/-- THE COLLISION FLAG (43_display.md R162 (e)): raised exactly when some pixel was set and the sprite has a 1 bit on it. -/
theorem hit_drawRows (x0 y : Nat) (sprite : List Byte) (acc : Frame × Bool) :
    (drawRows x0 y sprite acc).2 = true ↔
      acc.2 = true ∨ ∃ r c, spriteBit x0 y sprite r c = true ∧ acc.1.get r c = true := by
  induction sprite generalizing y acc with
  | nil =>
    constructor
    · exact Or.inl
    · rintro (h | ⟨r, c, h, -⟩)
      · exact h
      · simp [spriteBit] at h
        omega
  | cons b rest ih =>
    rw [drawRows, ih, drawRow, hit_drawColumns]
    have hget : ∀ r c, spriteBit x0 (y + 1) rest r c = true →
        (drawColumns x0 y b 8 acc).1.get r c = acc.1.get r c := by
      intro r c h
      have hne : r ≠ y := by
        simp only [spriteBit, Bool.and_eq_true, decide_eq_true_eq] at h
        omega
      by_cases hg : r < 32 ∧ c < 64
      · rw [get_drawColumns _ _ _ _ _ hg.1 hg.2]
        simp [hne]
      · rw [Frame.get_off_grid _ hg, Frame.get_off_grid _ hg]
    constructor
    · rintro ((h | ⟨c, h, hc⟩) | ⟨r, c, h, hc⟩)
      · exact Or.inl h
      · exact Or.inr ⟨y, c, by simp [spriteBit_cons, h], hc⟩
      · exact Or.inr ⟨r, c, by simp [spriteBit_cons, h], by rwa [hget r c h] at hc⟩
    · rintro (h | ⟨r, c, h, hc⟩)
      · exact Or.inl (Or.inl h)
      · rw [spriteBit_cons, Bool.or_eq_true, Bool.and_eq_true, decide_eq_true_eq] at h
        rcases h with ⟨rfl, h⟩ | h
        · exact Or.inl (Or.inr ⟨c, h, hc⟩)
        · exact Or.inr ⟨r, c, h, by rwa [hget r c h]⟩

end Sys2Proof.Machine
end

