-- ==== Sys2Proof/Laws/Memory.lean ====
section
/-!
SUPPORT. Memory as data: a read after a write (spec/20_memory.md R51), the canonical form that every memory operation keeps,
and that canonical memories which read alike are equal.
-/

namespace Sys2Proof.Machine

/-- The canonical form from `lo` on is also one from any lower address. -/
theorem Memory.wfFrom_mono {p : Params} {lo lo' : Nat} {m : List Host.Cell} (h : Memory.wfFrom p lo m = true)
    (hl : lo' ≤ lo) : Memory.wfFrom p lo' m = true := by
  cases m with
  | nil => rfl
  | cons c rest =>
    obtain ⟨k, v⟩ := c
    simp only [Memory.wfFrom, Bool.and_eq_true, decide_eq_true_eq] at h ⊢
    exact ⟨⟨⟨by omega, h.1.1.2⟩, h.1.2⟩, h.2⟩

/-- Below the lowest listed address a canonical memory reads as after reset. -/
theorem Memory.get_below {p : Params} {lo : Nat} {m : List Host.Cell} (h : Memory.wfFrom p lo m = true) {a : Nat}
    (ha : a < lo) : Memory.get p m a = resetByte p a := by
  induction m generalizing lo with
  | nil => rfl
  | cons c rest ih =>
    obtain ⟨k, v⟩ := c
    simp only [Memory.wfFrom, Bool.and_eq_true, decide_eq_true_eq] at h
    have hk : ¬ a = k := by omega
    rw [Memory.get, if_neg hk]
    exact ih h.2 (by omega)

/-- What memory holds after one byte is stored. -/
theorem Memory.get_set_from {p : Params} {lo : Nat} {m : List Host.Cell} (h : Memory.wfFrom p lo m = true)
    (a : Nat) (b : Byte) (x : Nat) :
    Memory.get p (Memory.set p m a b) x = if x = a then b else Memory.get p m x := by
  induction m generalizing lo with
  | nil =>
    rw [Memory.set]
    split <;> rename_i hb
    · by_cases hx : x = a <;> simp [Memory.get, hx, hb]
    · simp [Memory.get]
  | cons c rest ih =>
    obtain ⟨k, v⟩ := c
    have h0 := h
    simp only [Memory.wfFrom, Bool.and_eq_true, decide_eq_true_eq] at h
    rw [Memory.set]
    split <;> rename_i h1
    · split <;> rename_i hb
      · by_cases hx : x = a
        · have hd : Memory.get p ((k, v) :: rest) a = resetByte p a := by
            rw [Memory.get, if_neg (by omega), Memory.get_below h.2 (by omega)]
          simp [hx, hd, hb]
        · simp [hx]
      · simp [Memory.get]
    · split <;> rename_i h2
      · split <;> rename_i hb
        · by_cases hx : x = a
          · simp [hx, Memory.get_below h.2 (show a < k + 1 by omega), hb]
          · rw [if_neg hx, Memory.get, if_neg (show ¬ x = k by omega)]
        · subst h2
          by_cases hx : x = a <;> simp [Memory.get, hx]
      · by_cases hx : x = k
        · simp [Memory.get, hx, Ne.symm h2]
        · simp [Memory.get, hx, ih h.2]

/-- A store at or above `lo` keeps the canonical form from `lo` on. -/
theorem Memory.wfFrom_set {p : Params} {lo : Nat} {m : List Host.Cell} (h : Memory.wfFrom p lo m = true)
    {a : Nat} (b : Byte) (hl : lo ≤ a) (ha : a < 4096) : Memory.wfFrom p lo (Memory.set p m a b) = true := by
  induction m generalizing lo with
  | nil =>
    rw [Memory.set]
    split <;> rename_i hb
    · rfl
    · simp [Memory.wfFrom, hl, ha, hb]
  | cons c rest ih =>
    obtain ⟨k, v⟩ := c
    have h0 := h
    simp only [Memory.wfFrom, Bool.and_eq_true, decide_eq_true_eq] at h
    obtain ⟨⟨⟨hlk, hk⟩, hv⟩, hr⟩ := h
    rw [Memory.set]
    split <;> rename_i h1
    · split <;> rename_i hb
      · exact h0
      · simp only [Memory.wfFrom, Bool.and_eq_true, decide_eq_true_eq]
        exact ⟨⟨⟨hl, ha⟩, hb⟩, ⟨⟨by omega, hk⟩, hv⟩, hr⟩
    · split <;> rename_i h2
      · split <;> rename_i hb
        · exact Memory.wfFrom_mono hr (by omega)
        · simp only [Memory.wfFrom, Bool.and_eq_true, decide_eq_true_eq]
          subst h2
          exact ⟨⟨⟨hl, ha⟩, hb⟩, hr⟩
      · simp only [Memory.wfFrom, Bool.and_eq_true, decide_eq_true_eq]
        exact ⟨⟨⟨hlk, hk⟩, hv⟩, ih hr (by omega)⟩

/-- A read after a write (20_memory.md R51): the cell written holds the byte, every other cell what it held. -/
theorem Memory.get_set {p : Params} {m : List Host.Cell} (h : Memory.wf p m = true) (a : Nat) (b : Byte) (x : Nat) :
    Memory.get p (Memory.set p m a b) x = if x = a then b else Memory.get p m x :=
  Memory.get_set_from h a b x

/-- A store below 4096 keeps the canonical form. -/
theorem Memory.wf_set {p : Params} {m : List Host.Cell} (h : Memory.wf p m = true) {a : Nat} (b : Byte)
    (ha : a < 4096) : Memory.wf p (Memory.set p m a b) = true :=
  Memory.wfFrom_set h b (Nat.zero_le a) ha

/-- Reset memory is canonical: it lists nothing. -/
theorem Memory.wf_nil (p : Params) : Memory.wf p [] = true := rfl

/-- Stores of a byte string that fits below 4096 keep the canonical form. -/
theorem Memory.wf_setBytes {p : Params} {m : List Host.Cell} (h : Memory.wf p m = true) (a : Nat) (bs : List Byte)
    (ha : a + bs.length ≤ 4096) : Memory.wf p (Memory.setBytes p m a bs) = true := by
  induction bs generalizing m a with
  | nil => exact h
  | cons b rest ih =>
    simp only [List.length_cons] at ha
    exact ih (Memory.wf_set h b (by omega)) (a + 1) (by omega)

/-- What memory holds after a byte string is stored: the string's bytes at its addresses, the old bytes elsewhere. -/
theorem Memory.get_setBytes {p : Params} {m : List Host.Cell} (h : Memory.wf p m = true) (a : Nat) (bs : List Byte)
    (ha : a + bs.length ≤ 4096) (x : Nat) :
    Memory.get p (Memory.setBytes p m a bs) x =
      if a ≤ x ∧ x < a + bs.length then bs.getD (x - a) 0#8 else Memory.get p m x := by
  induction bs generalizing m a with
  | nil =>
    rw [if_neg (by simp)]
    rfl
  | cons b rest ih =>
    simp only [List.length_cons] at ha ⊢
    rw [Memory.setBytes, ih (Memory.wf_set h b (by omega)) (a + 1) (by omega), Memory.get_set h]
    by_cases hx : x = a
    · subst hx
      simp
    · by_cases hin : a + 1 ≤ x ∧ x < a + 1 + rest.length
      · rw [if_pos hin, if_pos (by omega), show x - a = (x - (a + 1)) + 1 by omega]
        rfl
      · rw [if_neg hin, if_neg hx, if_neg (by omega)]

/-- The memory built from a function is canonical. -/
theorem Memory.wfFrom_fillFrom (p : Params) (f : Nat → Byte) (lo n : Nat) (h : lo + n ≤ 4096) :
    Memory.wfFrom p lo (Memory.fillFrom p f lo n) = true := by
  induction n generalizing lo with
  | zero => rfl
  | succ n ih =>
    rw [Memory.fillFrom]
    split <;> rename_i hb
    · exact Memory.wfFrom_mono (ih (lo + 1) (by omega)) (by omega)
    · simp [Memory.wfFrom, hb, ih (lo + 1) (by omega)]
      omega

/-- The memory built from a function holds the function's bytes. -/
theorem Memory.get_fillFrom (p : Params) (f : Nat → Byte) (lo n : Nat) (hn : lo + n ≤ 4096) (x : Nat) :
    Memory.get p (Memory.fillFrom p f lo n) x = if lo ≤ x ∧ x < lo + n then f x else resetByte p x := by
  induction n generalizing lo with
  | zero =>
    rw [if_neg (by omega)]
    rfl
  | succ n ih =>
    have hr := ih (lo + 1) (by omega)
    rw [Memory.fillFrom]
    split <;> rename_i hb
    · rw [hr]
      by_cases hx : x = lo
      · subst hx
        simp [hb]
      · by_cases hin : lo + 1 ≤ x ∧ x < lo + 1 + n
        · rw [if_pos hin, if_pos (by omega)]
        · rw [if_neg hin, if_neg (by omega)]
    · rw [Memory.get, hr]
      by_cases hx : x = lo
      · subst hx
        simp
      · by_cases hin : lo + 1 ≤ x ∧ x < lo + 1 + n
        · rw [if_neg hx, if_pos hin, if_pos (by omega)]
        · rw [if_neg hx, if_neg hin, if_neg (by omega)]

/-- Canonical memories that read alike are equal lists. -/
theorem Memory.eq_of_get_eq {p : Params} {lo : Nat} {m m' : List Host.Cell} (h : Memory.wfFrom p lo m = true)
    (h' : Memory.wfFrom p lo m' = true) (hg : ∀ a, Memory.get p m a = Memory.get p m' a) : m = m' := by
  induction m generalizing m' lo with
  | nil =>
    cases m' with
    | nil => rfl
    | cons c rest =>
      obtain ⟨k, v⟩ := c
      simp only [Memory.wfFrom, Bool.and_eq_true, decide_eq_true_eq] at h'
      exact absurd (by simpa [Memory.get] using (hg k).symm) h'.1.2
  | cons c rest ih =>
    obtain ⟨k, v⟩ := c
    have h0 := h
    simp only [Memory.wfFrom, Bool.and_eq_true, decide_eq_true_eq] at h
    cases m' with
    | nil => exact absurd (by simpa [Memory.get] using hg k) h.1.2
    | cons c' rest' =>
      obtain ⟨k', v'⟩ := c'
      have h0' := h'
      simp only [Memory.wfFrom, Bool.and_eq_true, decide_eq_true_eq] at h'
      rcases Nat.lt_trichotomy k k' with hk | hk | hk
      · have hb : Memory.get p ((k', v') :: rest') k = resetByte p k := by
          rw [Memory.get, if_neg (by omega), Memory.get_below h'.2 (by omega)]
        exact absurd ((by simpa [Memory.get] using hg k : v = _).trans (by simpa [Memory.get] using hb)) h.1.2
      · subst hk
        have hv : v = v' := by simpa [Memory.get] using hg k
        subst hv
        congr 1
        refine ih h.2 h'.2 fun a => ?_
        by_cases ha : a = k
        · subst ha
          rw [Memory.get_below h.2 (by omega), Memory.get_below h'.2 (by omega)]
        · simpa [Memory.get, ha] using hg a
      · have hb : Memory.get p ((k, v) :: rest) k' = resetByte p k' := by
          rw [Memory.get, if_neg (by omega), Memory.get_below h.2 (by omega)]
        exact absurd ((by simpa [Memory.get] using (hg k').symm : v' = _).trans (by simpa [Memory.get] using hb)) h'.1.2

end Sys2Proof.Machine
end

