-- ==== Sys2Proof/Laws/Ops.lean ====
section
/-!
SUPPORT. For each shared operation of Machine/Ops.lean and Machine/Operands.lean, the lemmas that say everything it can do;
proofs cite these and do not unfold the operation.
-/

namespace Sys2Proof.Machine

/-! ## Memory access (spec/20_memory.md R52 to R54) -/

theorem memRead1_eq (s : State) (a : Nat) :
    memRead1 s a = if a < 4096 then .ok (s.byteAt a) else .error (.outOfBoundsAccess a) := by
  unfold memRead1
  by_cases h : 4096 ≤ a
  · rw [if_pos h, if_neg (by omega)]
  · rw [if_neg h, if_pos (by omega)]

theorem memWrite1_eq (s : State) (a : Nat) (v : Byte) :
    memWrite1 s a v =
      if a < 4096 then .ok (s.setMem (Memory.set s.params s.mem a v)) else .error (.outOfBoundsAccess a) := by
  unfold memWrite1
  by_cases h : 4096 ≤ a
  · rw [if_pos h, if_neg (by omega)]
  · rw [if_neg h, if_pos (by omega)]

theorem memRead2_of_lt (s : State) {a : Nat} (h : a + 1 < 4096) :
    memRead2 s a = .ok (wordOfBytes (s.byteAt a) (s.byteAt (a + 1))) := by
  rw [memRead2, if_neg (by omega), if_neg (by omega)]

theorem memRead2_of_ge (s : State) {a : Nat} (h : 4096 ≤ a + 1) :
    memRead2 s a = .error (.outOfBoundsAccess (if 4096 ≤ a then a else a + 1)) := by
  unfold memRead2
  by_cases h' : 4096 ≤ a
  · simp [h']
  · simp [h', h]

/-- Loading `n` bytes: all of them if they lie below 4096, else the fault of the first one that does not. -/
theorem loadBytes_eq (s : State) (a n : Nat) :
    loadBytes s a n =
      if n = 0 ∨ a + n ≤ 4096 then .ok ((List.range n).map fun i => s.byteAt (a + i))
      else .error (.outOfBoundsAccess (max a 4096)) := by
  induction n generalizing a with
  | zero => simp [loadBytes]
  | succ n ih =>
    rw [loadBytes, memRead1_eq]
    by_cases ha : a < 4096
    · rw [if_pos ha]
      simp only [ih]
      by_cases hn : n = 0 ∨ a + 1 + n ≤ 4096
      · rw [if_pos hn, if_pos (by omega), List.range_succ_eq_map]
        simp [Function.comp_def, Nat.add_comm, Nat.add_left_comm]
      · rw [if_neg hn, if_neg (by omega)]
        simp only [Except.error.injEq, Fault.outOfBoundsAccess.injEq]
        omega
    · rw [if_neg ha, if_neg (by omega)]
      simp only [Except.error.injEq, Fault.outOfBoundsAccess.injEq]
      omega

theorem loadBytes_length {s : State} {a n : Nat} {bs : List Byte} (h : loadBytes s a n = .ok bs) :
    bs.length = n := by
  rw [loadBytes_eq] at h
  split at h
  · simp only [Except.ok.injEq] at h
    simp [← h]
  · simp at h

/-- Storing bytes: all of them if they lie below 4096, else the fault of the first one that does not. -/
theorem storeBytes_eq (s : State) (a : Nat) (bs : List Byte) :
    storeBytes s a bs =
      if bs = [] ∨ a + bs.length ≤ 4096 then .ok (s.setMem (Memory.setBytes s.params s.mem a bs))
      else .error (.outOfBoundsAccess (max a 4096)) := by
  induction bs generalizing a s with
  | nil => simp [storeBytes, Memory.setBytes, State.setMem]
  | cons b rest ih =>
    rw [storeBytes, memWrite1_eq]
    by_cases ha : a < 4096
    · rw [if_pos ha]
      simp only [ih, List.length_cons, Memory.setBytes, State.setMem]
      by_cases hn : rest = [] ∨ a + 1 + rest.length ≤ 4096
      · rw [if_pos hn, if_pos]
        right
        rcases hn with rfl | hn
        · simp only [List.length_nil]
          omega
        · omega
      · have hr : rest ≠ [] := fun e => hn (Or.inl e)
        have hl : 0 < rest.length := List.length_pos_of_ne_nil hr
        rw [if_neg hn, if_neg (by simp; omega)]
        simp only [Except.error.injEq, Fault.outOfBoundsAccess.injEq]
        omega
    · rw [if_neg ha, if_neg (by simp; omega)]
      simp only [Except.error.injEq, Fault.outOfBoundsAccess.injEq]
      omega

/-- What memory reads as after a store of bytes that fits. -/
theorem byteAt_setBytes {s : State} (hm : MemoryCanonical s) {a : Nat} {bs : List Byte} (h : a + bs.length ≤ 4096)
    (x : Nat) :
    (s.setMem (Memory.setBytes s.params s.mem a bs)).byteAt x =
      if a ≤ x ∧ x < a + bs.length then bs.getD (x - a) 0#8 else s.byteAt x :=
  Memory.get_setBytes hm a bs h x

/-! ## Call stack (10_state.md R30, R31) -/

theorem push_of_not_full {s : State} (v : Word) (h : stackFull s = false) :
    push s v = .ok (s.setStack (v :: s.stack)) := by
  simp [push, h]

theorem push_of_full {s : State} (v : Word) (h : stackFull s = true) :
    push s v = .error (.stackOverflow (s.pc - 2#16)) := by
  simp [push, h, currentAddress]

theorem pop_of_cons {s : State} {v : Word} {rest : List Word} (h : s.stack = v :: rest) :
    pop s = .ok (v, s.setStack rest) := by
  simp [pop, h]

theorem pop_of_nil {s : State} (h : s.stack = []) : pop s = .error (.stackUnderflow (s.pc - 2#16)) := by
  simp [pop, h, currentAddress]

/-- A stack that is not full has room for one more entry. -/
theorem withinDepth_push {s : State} (h : stackFull s = false) (v : Word) :
    withinDepth s.params.stackDepth (v :: s.stack).length = true := by
  unfold stackFull at h
  unfold withinDepth
  cases hd : s.params.stackDepth with
  | unbounded => rfl
  | bounded n =>
    rw [hd] at h
    simp only [decide_eq_false_iff_not] at h
    simp only [List.length_cons, decide_eq_true_eq]
    omega

theorem withinDepth_mono {d : StackDepth} {j k : Nat} (h : withinDepth d k = true) (hj : j ≤ k) :
    withinDepth d j = true := by
  cases d with
  | unbounded => rfl
  | bounded n =>
    simp only [withinDepth, decide_eq_true_eq] at h ⊢
    omega

/-! ## Taking a fault (60_exceptions.md R185) -/

theorem memoryCanonical_takeFault (f : Fault) (s : State) : MemoryCanonical (takeFault f s) :=
  Memory.wfFrom_fillFrom _ _ 0 4096 (by omega)

theorem stackWithinCapacity_takeFault (f : Fault) (s : State) : StackWithinCapacity (takeFault f s) := by
  show withinDepth s.params.stackDepth (boundStack s.params.stackDepth _).length = true
  cases s.params.stackDepth with
  | unbounded => rfl
  | bounded n => simp [boundStack, withinDepth, List.length_take]

/-- An instruction that may raise a fault answers a next state either way. -/
theorem orTakeFault_cases (s : State) (r : Except Fault State) :
    (∃ t, r = .ok t ∧ orTakeFault s r = .next t) ∨
      ∃ f, r = .error f ∧ orTakeFault s r = .next (takeFault f s) := by
  cases r with
  | ok t => exact Or.inl ⟨t, rfl, rfl⟩
  | error f => exact Or.inr ⟨f, rfl, rfl⟩

/-! ## Operands -/

theorem regOf_val {i : Nat} (h : i < 16) : (regOf i).val = i := Nat.mod_eq_of_lt h

theorem regOf_reg (r : Reg) : regOf r.val = r := Fin.ext (regOf_val r.isLt)

theorem regValues_length (s : State) (i n : Nat) : (regValues s i n).length = n := by
  induction n generalizing i with
  | zero => rfl
  | succ n ih => simp [regValues, ih]

theorem regValues_getD (s : State) (i n k : Nat) (h : k < n) :
    (regValues s i n).getD k 0#8 = s.reg (regOf (i + k)) := by
  induction n generalizing i k with
  | zero => omega
  | succ n ih =>
    cases k with
    | zero => simp [regValues]
    | succ k =>
      have := ih (i + 1) k (by omega)
      rw [regValues, List.getD_cons_succ, this, show i + 1 + k = i + (k + 1) by omega]

/-- Register writes of a byte string change registers only. -/
theorem setRegValues_eq (s : State) (i : Nat) (bs : List Byte) :
    setRegValues s i bs = { s with regs := (setRegValues s i bs).regs } := by
  induction bs generalizing s i with
  | nil => rfl
  | cons b rest ih =>
    rw [setRegValues, ih]
    rfl

/-- The registers after a byte string is written into those from number `i` on. -/
theorem reg_setRegValues (s : State) (i : Nat) (bs : List Byte) (h : i + bs.length ≤ 16) (r : Reg) :
    (setRegValues s i bs).reg r =
      if i ≤ r.val ∧ r.val < i + bs.length then bs.getD (r.val - i) 0#8 else s.reg r := by
  induction bs generalizing s i with
  | nil =>
    rw [if_neg (by simp)]
    rfl
  | cons b rest ih =>
    simp only [List.length_cons] at h ⊢
    rw [setRegValues, ih _ (i + 1) (by omega), State.reg_setReg]
    by_cases hr : r.val = i
    · have e : r = regOf i := Fin.ext (by rw [regOf_val (by omega)]; exact hr)
      rw [if_neg (by omega), if_pos e, if_pos (by omega), hr, Nat.sub_self]
      rfl
    · have e : ¬ r = regOf i := fun h' => hr (by rw [h', regOf_val (by omega)])
      by_cases hin : i + 1 ≤ r.val ∧ r.val < i + 1 + rest.length
      · rw [if_pos hin, if_pos (by omega), show r.val - i = (r.val - (i + 1)) + 1 by omega]
        rfl
      · rw [if_neg hin, if_neg e, if_neg (by omega)]

/-- The advance of `I` after a register transfer changes `I` only. -/
theorem advanceIndex_eq (s : State) (x : Reg) :
    advanceIndex s x =
      s.setIndex (if s.cfg.oldStoreLoadBehavior then s.index + BitVec.ofNat 16 (x.val + 1) else s.index) := by
  unfold advanceIndex transferLength
  split <;> rfl

theorem lowNibble_eq (b : Byte) : lowNibble b = b.toNat % 16 := by
  simp [lowNibble]

theorem zext16_toNat (nnn : BitVec 12) : (zext16 nnn).toNat = nnn.toNat := by
  have := nnn.isLt
  simp only [zext16, BitVec.toNat_setWidth]
  omega

theorem zextByte_toNat (b : Byte) : (zextByte b).toNat = b.toNat := by
  have := b.isLt
  simp only [zextByte, BitVec.toNat_setWidth]
  omega

/-- A skip changes `pc` only. -/
theorem skipIf_eq (c : Bool) (s : State) : skipIf c s = s.setPc (if c then s.pc + 2#16 else s.pc) := rfl

/-- The lowest held key: held, and none below it from where the search began. -/
theorem lowestHeldFrom_some {keys : BitVec 16} {k n m : Nat} (h : lowestHeldFrom keys k n = some m) :
    k ≤ m ∧ m < k + n ∧ keys.getLsbD m = true ∧ ∀ j, k ≤ j → j < m → keys.getLsbD j = false := by
  induction n generalizing k with
  | zero => simp [lowestHeldFrom] at h
  | succ n ih =>
    rw [lowestHeldFrom] at h
    split at h <;> rename_i hk
    · simp only [Option.some.injEq] at h
      subst h
      exact ⟨by omega, by omega, hk, fun j h1 h2 => by omega⟩
    · obtain ⟨h1, h2, h3, h4⟩ := ih h
      refine ⟨by omega, by omega, h3, fun j hj1 hj2 => ?_⟩
      by_cases e : j = k
      · subst e
        simpa using hk
      · exact h4 j (by omega) hj2

theorem lowestHeldFrom_none {keys : BitVec 16} {k n : Nat} (h : lowestHeldFrom keys k n = none) (j : Nat)
    (h1 : k ≤ j) (h2 : j < k + n) : keys.getLsbD j = false := by
  induction n generalizing k with
  | zero => omega
  | succ n ih =>
    rw [lowestHeldFrom] at h
    split at h <;> rename_i hk
    · simp at h
    · by_cases e : j = k
      · subst e
        simpa using hk
      · exact ih h (by omega) (by omega)

/-- No key is found exactly when none is held. -/
theorem lowestHeld_none_iff (keys : BitVec 16) : lowestHeld keys = none ↔ keys = 0#16 := by
  constructor
  · intro h
    apply BitVec.eq_of_getLsbD_eq
    intro j hj
    simp [lowestHeldFrom_none h j (by omega) (by omega)]
  · rintro rfl
    decide

/-! ## Flags -/

/-- The index flag changes registers only. -/
theorem writeIndexFlag_eq (r : Word) (s : State) :
    writeIndexFlag r s = { s with regs := (writeIndexFlag r s).regs } := by
  unfold writeIndexFlag
  split
  · split
    · rfl
    · split <;> rfl
  · rfl

/-- A result and a flag change registers only. -/
theorem writeResultAndFlag_eq (x : Reg) (v : Byte) (flag : Bool) (s : State) :
    writeResultAndFlag x v flag s = { s with regs := (writeResultAndFlag x v flag s).regs } := rfl

/-- Result and flag: the flag register holds the flag, whatever the destination; the destination holds the result if it is
not the flag register (41_alu.md R129). -/
theorem reg_writeResultAndFlag (x : Reg) (v : Byte) (flag : Bool) (s : State) (r : Reg) :
    (writeResultAndFlag x v flag s).reg r =
      if r = 15 then (if flag then 1#8 else 0#8) else if r = x then v else s.reg r := by
  rw [writeResultAndFlag, State.reg_setFlag, State.reg_setReg]

/-! ## The cycle -/

theorem decayed_toNat (t : Byte) (k : Nat) : (decayed t k).toNat = t.toNat - k := by
  have := t.isLt
  simp only [decayed, BitVec.toNat_ofNat]
  omega

/-- Fetch and decode when the two cells exist and the word is an instruction. -/
theorem fetchDecode_of_decode {s : State} {i : Instr} (hp : s.pc.toNat + 1 < 4096)
    (hd : decode (wordOfBytes (s.byteAt s.pc.toNat) (s.byteAt (s.pc.toNat + 1))) = .ok i) :
    fetchDecode s = .ok (i, s.setPc (s.pc + 2#16)) := by
  simp only [fetchDecode, memRead2_of_lt s hp, hd]

/-- What a successful fetch and decode says. -/
theorem fetchDecode_ok {s t : State} {i : Instr} (h : fetchDecode s = .ok (i, t)) :
    s.pc.toNat + 1 < 4096 ∧
      decode (wordOfBytes (s.byteAt s.pc.toNat) (s.byteAt (s.pc.toNat + 1))) = .ok i ∧
      t = s.setPc (s.pc + 2#16) := by
  unfold fetchDecode at h
  by_cases hp : s.pc.toNat + 1 < 4096
  · rw [memRead2_of_lt s hp] at h
    simp only at h
    split at h <;> rename_i hd
    · simp at h
    · simp only [Except.ok.injEq, Prod.mk.injEq] at h
      exact ⟨hp, by rw [hd, h.1], h.2.symm⟩
  · rw [memRead2_of_ge s (by omega)] at h
    simp at h

/-- What a failed fetch or decode says: the first address out of range, or a word the decoder rejects. -/
theorem fetchDecode_error {s : State} {f : Fault} (h : fetchDecode s = .error f) :
    (4096 ≤ s.pc.toNat + 1 ∧
        f = .outOfBoundsAccess (if 4096 ≤ s.pc.toNat then s.pc.toNat else s.pc.toNat + 1)) ∨
      (s.pc.toNat + 1 < 4096 ∧
        (∃ e, decode (wordOfBytes (s.byteAt s.pc.toNat) (s.byteAt (s.pc.toNat + 1))) = .error e) ∧
        f = .unknownInstruction (wordOfBytes (s.byteAt s.pc.toNat) (s.byteAt (s.pc.toNat + 1)))) := by
  unfold fetchDecode at h
  by_cases hp : s.pc.toNat + 1 < 4096
  · rw [memRead2_of_lt s hp] at h
    simp only at h
    split at h <;> rename_i hd
    · simp only [Except.error.injEq] at h
      exact Or.inr ⟨hp, ⟨_, hd⟩, h.symm⟩
    · simp at h
  · rw [memRead2_of_ge s (by omega)] at h
    simp only [Except.error.injEq] at h
    exact Or.inl ⟨by omega, h.symm⟩

/-- The end of a cycle changes the timers, the previous frame and the events, and moves on to the next input sample. -/
theorem endCycle_eq (t : State) :
    endCycle t =
      { t with
        dt := decayed t.dt t.inp.ticks,
        st := decayed t.st t.inp.ticks,
        fbPrev := if 0 < t.inp.ticks then t.fb else t.fbPrev,
        presented := if 0 < t.inp.ticks then (t.fb, t.fbPrev) :: t.presented else t.presented,
        inp := (endCycle t).inp, env := (endCycle t).env, draws := (endCycle t).draws } := by
  unfold endCycle sampleNext timerDecay
  split <;> split <;> rfl

@[simp] theorem endCycle_run (t : State) : (endCycle t).run = t.run := by rw [endCycle_eq]
@[simp] theorem endCycle_fault (t : State) : (endCycle t).fault = t.fault := by rw [endCycle_eq]
@[simp] theorem endCycle_mem (t : State) : (endCycle t).mem = t.mem := by rw [endCycle_eq]
@[simp] theorem endCycle_params (t : State) : (endCycle t).params = t.params := by rw [endCycle_eq]
@[simp] theorem endCycle_cfg (t : State) : (endCycle t).cfg = t.cfg := by rw [endCycle_eq]
@[simp] theorem endCycle_pc (t : State) : (endCycle t).pc = t.pc := by rw [endCycle_eq]
@[simp] theorem endCycle_stack (t : State) : (endCycle t).stack = t.stack := by rw [endCycle_eq]

/-- A cycle of a running machine without a quit request. -/
theorem step_running {s : State} (hr : s.run = .running) (hq : s.inp.quit = false) :
    step s = match fetchDecode s with
      | .error f => .next (takeFault f s)
      | .ok (i, t) => finishCycle (exec i t) := by
  unfold step cycle
  simp only [hr, hq, Bool.false_eq_true, if_false] <;> rfl

end Sys2Proof.Machine
end

