-- ==== Sys2Proof/Laws/Exec.lean ====
section
/-!
SUPPORT. What one instruction can do to the parts of the state that no instruction computes with: the inversion lemma of
`exec`, from which whole-machine claims follow without unfolding it again.
-/

namespace Sys2Proof.Machine

/-! ## The instructions that may fault or wait, by case: each lemma is the meaning in that case -/

theorem exec_ret_of_cons {s : State} {v : Word} {rest : List Word} (h : s.stack = v :: rest) :
    exec .ret s = .next ((s.setStack rest).setPc v) := by
  show execRet s = _
  simp only [execRet, pop_of_cons h, orTakeFault]

theorem exec_ret_of_nil {s : State} (h : s.stack = []) :
    exec .ret s = .next (takeFault (.stackUnderflow (s.pc - 2#16)) s) := by
  show execRet s = _
  simp only [execRet, pop_of_nil h, orTakeFault]

theorem exec_call_of_room (nnn : BitVec 12) {s : State} (h : stackFull s = false) :
    exec (.call nnn) s = .next ((s.setStack (s.pc :: s.stack)).setPc (zext16 nnn)) := by
  show execCall nnn s = _
  simp only [execCall, push_of_not_full _ h, orTakeFault]

theorem exec_call_of_full (nnn : BitVec 12) {s : State} (h : stackFull s = true) :
    exec (.call nnn) s = .next (takeFault (.stackOverflow (s.pc - 2#16)) s) := by
  show execCall nnn s = _
  simp only [execCall, push_of_full _ h, orTakeFault]

theorem exec_draw_of_fits (x y : Reg) {n : BitVec 4} {s : State} (h : n.toNat = 0 ∨ s.index.toNat + n.toNat ≤ 4096) :
    exec (.draw x y n) s =
      .next (drawSprite x y ((List.range n.toNat).map fun i => s.byteAt (s.index.toNat + i)) s) := by
  show execDraw x y n s = _
  simp only [execDraw, baseAddress, loadBytes_eq, if_pos h, orTakeFault]

theorem exec_draw_of_beyond (x y : Reg) {n : BitVec 4} {s : State}
    (h : ¬ (n.toNat = 0 ∨ s.index.toNat + n.toNat ≤ 4096)) :
    exec (.draw x y n) s = .next (takeFault (.outOfBoundsAccess (max s.index.toNat 4096)) s) := by
  show execDraw x y n s = _
  simp only [execDraw, baseAddress, loadBytes_eq, if_neg h, orTakeFault]

theorem exec_setBcd_of_fits (x : Reg) {s : State} (h : s.index.toNat + 3 ≤ 4096) :
    exec (.setBcd x) s =
      .next (s.setMem (Memory.setBytes s.params s.mem s.index.toNat (bcdDigits (s.reg x)))) := by
  have h' : bcdDigits (s.reg x) = [] ∨ s.index.toNat + (bcdDigits (s.reg x)).length ≤ 4096 := Or.inr h
  show execSetBcd x s = _
  simp only [execSetBcd, baseAddress, storeBytes_eq, if_pos h', orTakeFault]

theorem exec_setBcd_of_beyond (x : Reg) {s : State} (h : 4096 < s.index.toNat + 3) :
    exec (.setBcd x) s = .next (takeFault (.outOfBoundsAccess (max s.index.toNat 4096)) s) := by
  have h' : ¬ (bcdDigits (s.reg x) = [] ∨ s.index.toNat + (bcdDigits (s.reg x)).length ≤ 4096) := by
    rintro (h' | h')
    · simp [bcdDigits] at h'
    · simp only [bcdDigits, List.length_cons, List.length_nil] at h'
      omega
  show execSetBcd x s = _
  simp only [execSetBcd, baseAddress, storeBytes_eq, if_neg h', orTakeFault]

theorem exec_regStore_of_fits (x : Reg) {s : State} (h : s.index.toNat + (x.val + 1) ≤ 4096) :
    exec (.regStore x) s =
      .next (advanceIndex (s.setMem (Memory.setBytes s.params s.mem s.index.toNat (regValues s 0 (x.val + 1)))) x) := by
  have h' : regValues s 0 (x.val + 1) = [] ∨ s.index.toNat + (regValues s 0 (x.val + 1)).length ≤ 4096 :=
    Or.inr (by rwa [regValues_length])
  show execRegStore x s = _
  simp only [execRegStore, baseAddress, transferLength, storeBytes_eq, if_pos h', orTakeFault]

theorem exec_regStore_of_beyond (x : Reg) {s : State} (h : 4096 < s.index.toNat + (x.val + 1)) :
    exec (.regStore x) s = .next (takeFault (.outOfBoundsAccess (max s.index.toNat 4096)) s) := by
  have h' : ¬ (regValues s 0 (x.val + 1) = [] ∨ s.index.toNat + (regValues s 0 (x.val + 1)).length ≤ 4096) := by
    rintro (h' | h')
    · simp [regValues] at h'
    · rw [regValues_length] at h'
      omega
  show execRegStore x s = _
  simp only [execRegStore, baseAddress, transferLength, storeBytes_eq, if_neg h', orTakeFault]

theorem exec_regLoad_of_fits (x : Reg) {s : State} (h : s.index.toNat + (x.val + 1) ≤ 4096) :
    exec (.regLoad x) s =
      .next (advanceIndex
        (setRegValues s 0 ((List.range (x.val + 1)).map fun i => s.byteAt (s.index.toNat + i))) x) := by
  have h' : x.val + 1 = 0 ∨ s.index.toNat + (x.val + 1) ≤ 4096 := Or.inr h
  show execRegLoad x s = _
  simp only [execRegLoad, baseAddress, transferLength, loadBytes_eq, if_pos h', orTakeFault]

theorem exec_regLoad_of_beyond (x : Reg) {s : State} (h : 4096 < s.index.toNat + (x.val + 1)) :
    exec (.regLoad x) s = .next (takeFault (.outOfBoundsAccess (max s.index.toNat 4096)) s) := by
  have h' : ¬ (x.val + 1 = 0 ∨ s.index.toNat + (x.val + 1) ≤ 4096) := by omega
  show execRegLoad x s = _
  simp only [execRegLoad, baseAddress, transferLength, loadBytes_eq, if_neg h', orTakeFault]

theorem exec_getKey_of_none (x : Reg) {s : State} (h : lowestHeld s.inp.keys = none) :
    exec (.getKey x) s = .next (s.setPc (s.pc - 2#16)) := by
  show execGetKey x s = _
  simp only [execGetKey, getKeyPc, getKeyRegs, h]
  rfl

theorem exec_getKey_of_some (x : Reg) {s : State} {k : Nat} (h : lowestHeld s.inp.keys = some k) :
    exec (.getKey x) s = .next (s.setReg x (BitVec.ofNat 8 k)) := by
  show execGetKey x s = _
  simp only [execGetKey, getKeyPc, getKeyRegs, h]
  rfl

/-! ## What no instruction computes with -/

/-- What every completed instruction leaves alone: run status, fault record, configuration, parameters, inputs and the
counter of free values. -/
structure KeepsControl (s t : State) : Prop where
  run : t.run = s.run
  fault : t.fault = s.fault
  cfg : t.cfg = s.cfg
  params : t.params = s.params
  inp : t.inp = s.inp
  env : t.env = s.env
  draws : t.draws = s.draws

/-- The fault an instruction takes in a state, if it takes one there. -/
def faultRaised : Instr → State → Option Fault
  | .ret, s => some (.stackUnderflow (s.pc - 2#16))
  | .call _, s => some (.stackOverflow (s.pc - 2#16))
  | .draw _ _ _, s => some (.outOfBoundsAccess (max s.index.toNat 4096))
  | .setBcd _, s => some (.outOfBoundsAccess (max s.index.toNat 4096))
  | .regStore _, s => some (.outOfBoundsAccess (max s.index.toNat 4096))
  | .regLoad _, s => some (.outOfBoundsAccess (max s.index.toNat 4096))
  | _, _ => none

/-- It is one the instruction may raise (60_exceptions.md R189). -/
theorem mayRaise_of_faultRaised {i : Instr} {s : State} {f : Fault} (h : faultRaised i s = some f) :
    mayRaise i f = true := by
  cases i <;> simp only [faultRaised, Option.some.injEq, reduceCtorEq] at h <;> subst h
  all_goals first
    | rfl
    | exact decide_eq_true (Nat.le_max_right _ _)

/-- An instruction either completes, leaving the control state alone, or takes its fault (spec/60_exceptions.md R185,
R189). -/
def CompletesOrFaults (i : Instr) (s : State) : Prop :=
  (∃ t, exec i s = .next t ∧ KeepsControl s t) ∨
    ∃ f, faultRaised i s = some f ∧ exec i s = .next (takeFault f s)

theorem KeepsControl.skipIf (c : Bool) (s : State) : KeepsControl s (skipIf c s) := by
  rw [skipIf_eq]
  exact ⟨rfl, rfl, rfl, rfl, rfl, rfl, rfl⟩

theorem KeepsControl.setRegValues (s : State) (i : Nat) (bs : List Byte) : KeepsControl s (setRegValues s i bs) := by
  rw [setRegValues_eq]
  exact ⟨rfl, rfl, rfl, rfl, rfl, rfl, rfl⟩

theorem KeepsControl.trans {s t u : State} (h : KeepsControl s t) (h' : KeepsControl t u) : KeepsControl s u :=
  ⟨h'.run.trans h.run, h'.fault.trans h.fault, h'.cfg.trans h.cfg, h'.params.trans h.params, h'.inp.trans h.inp,
    h'.env.trans h.env, h'.draws.trans h.draws⟩

theorem KeepsControl.advanceIndex (s : State) (x : Reg) : KeepsControl s (advanceIndex s x) := by
  rw [advanceIndex_eq]
  exact ⟨rfl, rfl, rfl, rfl, rfl, rfl, rfl⟩

theorem KeepsControl.writeIndexFlag (r : Word) (s : State) : KeepsControl s (writeIndexFlag r s) := by
  rw [writeIndexFlag_eq]
  exact ⟨rfl, rfl, rfl, rfl, rfl, rfl, rfl⟩

/-- The inversion lemma of `exec`. -/
theorem exec_cases (i : Instr) (s : State) : CompletesOrFaults i s := by
  have plain : ∀ {i t}, exec i s = .next t → KeepsControl s t → CompletesOrFaults i s :=
    fun h k => Or.inl ⟨_, h, k⟩
  cases i with
  | clearScreen => exact plain rfl ⟨rfl, rfl, rfl, rfl, rfl, rfl, rfl⟩
  | ret =>
    cases hs : s.stack with
    | nil => exact Or.inr ⟨.stackUnderflow _, rfl, exec_ret_of_nil hs⟩
    | cons v rest => exact plain (exec_ret_of_cons hs) ⟨rfl, rfl, rfl, rfl, rfl, rfl, rfl⟩
  | jump nnn => exact plain rfl ⟨rfl, rfl, rfl, rfl, rfl, rfl, rfl⟩
  | call nnn =>
    cases hf : stackFull s with
    | true => exact Or.inr ⟨.stackOverflow _, rfl, exec_call_of_full nnn hf⟩
    | false => exact plain (exec_call_of_room nnn hf) ⟨rfl, rfl, rfl, rfl, rfl, rfl, rfl⟩
  | skipEqIm x nn => exact plain rfl (.skipIf _ s)
  | skipNeIm x nn => exact plain rfl (.skipIf _ s)
  | skipEq x y => exact plain rfl (.skipIf _ s)
  | setIm x nn => exact plain rfl ⟨rfl, rfl, rfl, rfl, rfl, rfl, rfl⟩
  | addIm x nn => exact plain rfl ⟨rfl, rfl, rfl, rfl, rfl, rfl, rfl⟩
  | set x y => exact plain rfl ⟨rfl, rfl, rfl, rfl, rfl, rfl, rfl⟩
  | or x y => exact plain rfl ⟨rfl, rfl, rfl, rfl, rfl, rfl, rfl⟩
  | and x y => exact plain rfl ⟨rfl, rfl, rfl, rfl, rfl, rfl, rfl⟩
  | xor x y => exact plain rfl ⟨rfl, rfl, rfl, rfl, rfl, rfl, rfl⟩
  | add x y => exact plain rfl ⟨rfl, rfl, rfl, rfl, rfl, rfl, rfl⟩
  | sub x y => exact plain rfl ⟨rfl, rfl, rfl, rfl, rfl, rfl, rfl⟩
  | shr x y => exact plain rfl ⟨rfl, rfl, rfl, rfl, rfl, rfl, rfl⟩
  | subOpp x y => exact plain rfl ⟨rfl, rfl, rfl, rfl, rfl, rfl, rfl⟩
  | shl x y => exact plain rfl ⟨rfl, rfl, rfl, rfl, rfl, rfl, rfl⟩
  | skipNe x y => exact plain rfl (.skipIf _ s)
  | setIndex nnn => exact plain rfl ⟨rfl, rfl, rfl, rfl, rfl, rfl, rfl⟩
  | jumpV0 nnn => exact plain rfl ⟨rfl, rfl, rfl, rfl, rfl, rfl, rfl⟩
  | randAnd x nn => exact plain rfl ⟨rfl, rfl, rfl, rfl, rfl, rfl, rfl⟩
  | draw x y n =>
    by_cases h : n.toNat = 0 ∨ s.index.toNat + n.toNat ≤ 4096
    · exact plain (exec_draw_of_fits x y h) ⟨rfl, rfl, rfl, rfl, rfl, rfl, rfl⟩
    · exact Or.inr ⟨.outOfBoundsAccess _, rfl, exec_draw_of_beyond x y h⟩
  | skipKeyEq x => exact plain rfl (.skipIf _ s)
  | skipKeyNe x => exact plain rfl (.skipIf _ s)
  | getDelay x => exact plain rfl ⟨rfl, rfl, rfl, rfl, rfl, rfl, rfl⟩
  | getKey x =>
    cases hk : lowestHeld s.inp.keys with
    | none => exact plain (exec_getKey_of_none x hk) ⟨rfl, rfl, rfl, rfl, rfl, rfl, rfl⟩
    | some k => exact plain (exec_getKey_of_some x hk) ⟨rfl, rfl, rfl, rfl, rfl, rfl, rfl⟩
  | setDelay x => exact plain rfl ⟨rfl, rfl, rfl, rfl, rfl, rfl, rfl⟩
  | setSound x => exact plain rfl ⟨rfl, rfl, rfl, rfl, rfl, rfl, rfl⟩
  | addIndex x =>
    exact plain rfl (KeepsControl.trans (t := s.setIndex (s.index + zextByte (s.reg x)))
      ⟨rfl, rfl, rfl, rfl, rfl, rfl, rfl⟩ (.writeIndexFlag _ _))
  | indexCharacter x => exact plain rfl ⟨rfl, rfl, rfl, rfl, rfl, rfl, rfl⟩
  | setBcd x =>
    by_cases h : s.index.toNat + 3 ≤ 4096
    · exact plain (exec_setBcd_of_fits x h) ⟨rfl, rfl, rfl, rfl, rfl, rfl, rfl⟩
    · exact Or.inr ⟨.outOfBoundsAccess _, rfl, exec_setBcd_of_beyond x (by omega)⟩
  | regStore x =>
    by_cases h : s.index.toNat + (x.val + 1) ≤ 4096
    · exact plain (exec_regStore_of_fits x h)
        (KeepsControl.trans
          (t := s.setMem (Memory.setBytes s.params s.mem s.index.toNat (regValues s 0 (x.val + 1))))
          ⟨rfl, rfl, rfl, rfl, rfl, rfl, rfl⟩ (.advanceIndex _ x))
    · exact Or.inr ⟨.outOfBoundsAccess _, rfl, exec_regStore_of_beyond x (by omega)⟩
  | regLoad x =>
    by_cases h : s.index.toNat + (x.val + 1) ≤ 4096
    · exact plain (exec_regLoad_of_fits x h) (KeepsControl.trans (.setRegValues _ _ _) (.advanceIndex _ x))
    · exact Or.inr ⟨.outOfBoundsAccess _, rfl, exec_regLoad_of_beyond x (by omega)⟩

end Sys2Proof.Machine
end

