-- ==== Sys2Proof/Laws/Effects.lean ====
section
/-!
SUPPORT. What one completed instruction can do to memory, the call stack and `pc`, said once for all instructions: the
invariants of a cycle are case analyses over it.
-/

namespace Sys2Proof.Machine

/-- A completed instruction `i` from `s` to `t`, seen through memory, stack and `pc`. -/
structure Effects (i : Instr) (s t : State) : Prop where
  /-- Memory is kept, or SetBcd or RegStore stored a byte string that fits at `I`. -/
  mem : t.mem = s.mem ∨ ∃ bs, s.index.toNat + bs.length ≤ 4096 ∧
    t.mem = Memory.setBytes s.params s.mem s.index.toNat bs ∧ ∃ x, i = .setBcd x ∨ i = .regStore x
  /-- The stack is kept, or Call pushed `pc`, or Return popped its top into `pc`. -/
  stack : (t.stack = s.stack ∧ i ≠ .ret) ∨
    (∃ nnn, i = .call nnn ∧ t.stack = s.pc :: s.stack ∧ stackFull s = false) ∨
    (i = .ret ∧ s.stack = t.pc :: t.stack)
  /-- `pc` is kept, or moved by one word, or set to an immediate plus at most a byte, or popped by Return. -/
  pc : t.pc = s.pc ∨ t.pc = s.pc + 2#16 ∨ t.pc = s.pc - 2#16 ∨ t.pc.toNat ≤ 4095 + 255 ∨ i = .ret

/-- An instruction that touches none of the three. -/
theorem Effects.same {i : Instr} {s t : State} (hm : t.mem = s.mem) (hs : t.stack = s.stack) (hi : i ≠ .ret)
    (hp : t.pc = s.pc) : Effects i s t :=
  ⟨Or.inl hm, Or.inl ⟨hs, hi⟩, Or.inl hp⟩

theorem Effects.skipIf {i : Instr} (c : Bool) (s : State) (hi : i ≠ .ret) : Effects i s (skipIf c s) := by
  rw [skipIf_eq]
  refine ⟨Or.inl rfl, Or.inl ⟨rfl, hi⟩, ?_⟩
  cases c
  · exact Or.inl rfl
  · exact Or.inr (Or.inl rfl)

/-- The target of JumpV0 is at most 0x0FFF + 0x00FF (10_state.md R26). -/
theorem jumpV0Target_toNat_le (s : State) (nnn : BitVec 12) : (jumpV0Target s nnn).toNat ≤ 4095 + 255 := by
  have h1 := nnn.isLt
  have h2 := (s.reg (jumpReg s nnn)).isLt
  rw [jumpV0Target, BitVec.toNat_add, zext16_toNat, zextByte_toNat]
  omega

theorem zext16_toNat_le (nnn : BitVec 12) : (zext16 nnn).toNat ≤ 4095 + 255 := by
  have := nnn.isLt
  rw [zext16_toNat]
  omega

/-- What a completed instruction does to memory, stack and `pc`. -/
theorem exec_effects {i : Instr} {s t : State} (h : exec i s = .next t) (ht : t.run ≠ .faulted) : Effects i s t := by
  have fault : ∀ {f}, exec i s = .next (takeFault f s) → Effects i s t := by
    intro f he
    rw [h] at he
    cases he
    exact absurd rfl ht
  cases i with
  | ret =>
    cases hs : s.stack with
    | nil => exact fault (exec_ret_of_nil hs)
    | cons v rest =>
      rw [exec_ret_of_cons hs] at h
      cases h
      exact ⟨Or.inl rfl, Or.inr (Or.inr ⟨rfl, hs⟩), Or.inr (Or.inr (Or.inr (Or.inr rfl)))⟩
  | call nnn =>
    cases hs : stackFull s with
    | true => exact fault (exec_call_of_full nnn hs)
    | false =>
      rw [exec_call_of_room nnn hs] at h
      cases h
      exact ⟨Or.inl rfl, Or.inr (Or.inl ⟨nnn, rfl, rfl, hs⟩), Or.inr (Or.inr (Or.inr (Or.inl (zext16_toNat_le nnn))))⟩
  | jump nnn =>
    cases h
    exact ⟨Or.inl rfl, Or.inl ⟨rfl, nofun⟩, Or.inr (Or.inr (Or.inr (Or.inl (zext16_toNat_le nnn))))⟩
  | jumpV0 nnn =>
    cases h
    exact ⟨Or.inl rfl, Or.inl ⟨rfl, nofun⟩, Or.inr (Or.inr (Or.inr (Or.inl (jumpV0Target_toNat_le s nnn))))⟩
  | draw x y n =>
    by_cases hd : n.toNat = 0 ∨ s.index.toNat + n.toNat ≤ 4096
    · rw [exec_draw_of_fits x y hd] at h
      cases h
      exact .same rfl rfl nofun rfl
    · exact fault (exec_draw_of_beyond x y hd)
  | getKey x =>
    cases hk : lowestHeld s.inp.keys with
    | none =>
      rw [exec_getKey_of_none x hk] at h
      cases h
      exact ⟨Or.inl rfl, Or.inl ⟨rfl, nofun⟩, Or.inr (Or.inr (Or.inl rfl))⟩
    | some k =>
      rw [exec_getKey_of_some x hk] at h
      cases h
      exact .same rfl rfl nofun rfl
  | addIndex x =>
    have he : exec (.addIndex x) s =
        .next (writeIndexFlag (s.index + zextByte (s.reg x)) (s.setIndex (s.index + zextByte (s.reg x)))) := rfl
    rw [he, writeIndexFlag_eq] at h
    cases h
    exact .same rfl rfl nofun rfl
  | setBcd x =>
    by_cases hd : s.index.toNat + 3 ≤ 4096
    · rw [exec_setBcd_of_fits x hd] at h
      cases h
      exact ⟨Or.inr ⟨bcdDigits (s.reg x), hd, rfl, x, Or.inl rfl⟩, Or.inl ⟨rfl, nofun⟩, Or.inl rfl⟩
    · exact fault (exec_setBcd_of_beyond x (by omega))
  | regStore x =>
    by_cases hd : s.index.toNat + (x.val + 1) ≤ 4096
    · rw [exec_regStore_of_fits x hd, advanceIndex_eq] at h
      cases h
      exact ⟨Or.inr ⟨regValues s 0 (x.val + 1), by rwa [regValues_length], rfl, x, Or.inr rfl⟩,
        Or.inl ⟨rfl, nofun⟩, Or.inl rfl⟩
    · exact fault (exec_regStore_of_beyond x (by omega))
  | regLoad x =>
    by_cases hd : s.index.toNat + (x.val + 1) ≤ 4096
    · rw [exec_regLoad_of_fits x hd, advanceIndex_eq, setRegValues_eq] at h
      cases h
      exact .same rfl rfl nofun rfl
    · exact fault (exec_regLoad_of_beyond x (by omega))
  | skipEqIm x nn => cases h; exact .skipIf _ s nofun
  | skipNeIm x nn => cases h; exact .skipIf _ s nofun
  | skipEq x y => cases h; exact .skipIf _ s nofun
  | skipNe x y => cases h; exact .skipIf _ s nofun
  | skipKeyEq x => cases h; exact .skipIf _ s nofun
  | skipKeyNe x => cases h; exact .skipIf _ s nofun
  | clearScreen => cases h; exact .same rfl rfl nofun rfl
  | setIm x nn => cases h; exact .same rfl rfl nofun rfl
  | addIm x nn => cases h; exact .same rfl rfl nofun rfl
  | set x y => cases h; exact .same rfl rfl nofun rfl
  | or x y => cases h; exact .same rfl rfl nofun rfl
  | and x y => cases h; exact .same rfl rfl nofun rfl
  | xor x y => cases h; exact .same rfl rfl nofun rfl
  | add x y => cases h; exact .same rfl rfl nofun rfl
  | sub x y => cases h; exact .same rfl rfl nofun rfl
  | shr x y => cases h; exact .same rfl rfl nofun rfl
  | subOpp x y => cases h; exact .same rfl rfl nofun rfl
  | shl x y => cases h; exact .same rfl rfl nofun rfl
  | setIndex nnn => cases h; exact .same rfl rfl nofun rfl
  | randAnd x nn => cases h; exact .same rfl rfl nofun rfl
  | getDelay x => cases h; exact .same rfl rfl nofun rfl
  | setDelay x => cases h; exact .same rfl rfl nofun rfl
  | setSound x => cases h; exact .same rfl rfl nofun rfl
  | indexCharacter x => cases h; exact .same rfl rfl nofun rfl

end Sys2Proof.Machine
end

