-- ==== Sys2Proof/Laws/PerInstr.lean ====
section
/-!
SUPPORT. Statements made per instruction, as syntax. Family TableRow: the word the encoder makes matches the instruction's
own row of spec/30_encoding.md R74.
-/

namespace Sys2Proof.Laws.TableRow

/-- Mask and match of the instruction's row of R74's table. -/
def row : Instr → Word × Word
  | .clearScreen => (0xFFFF#16, 0x00E0#16)
  | .ret => (0xFFFF#16, 0x00EE#16)
  | .jump _ => (0xF000#16, 0x1000#16)
  | .call _ => (0xF000#16, 0x2000#16)
  | .skipEqIm _ _ => (0xF000#16, 0x3000#16)
  | .skipNeIm _ _ => (0xF000#16, 0x4000#16)
  | .skipEq _ _ => (0xF00F#16, 0x5000#16)
  | .setIm _ _ => (0xF000#16, 0x6000#16)
  | .addIm _ _ => (0xF000#16, 0x7000#16)
  | .set _ _ => (0xF00F#16, 0x8000#16)
  | .or _ _ => (0xF00F#16, 0x8001#16)
  | .and _ _ => (0xF00F#16, 0x8002#16)
  | .xor _ _ => (0xF00F#16, 0x8003#16)
  | .add _ _ => (0xF00F#16, 0x8004#16)
  | .sub _ _ => (0xF00F#16, 0x8005#16)
  | .shr _ _ => (0xF00F#16, 0x8006#16)
  | .subOpp _ _ => (0xF00F#16, 0x8007#16)
  | .shl _ _ => (0xF00F#16, 0x800E#16)
  | .skipNe _ _ => (0xF00F#16, 0x9000#16)
  | .setIndex _ => (0xF000#16, 0xA000#16)
  | .jumpV0 _ => (0xF000#16, 0xB000#16)
  | .randAnd _ _ => (0xF000#16, 0xC000#16)
  | .draw _ _ _ => (0xF000#16, 0xD000#16)
  | .skipKeyEq _ => (0xF0FF#16, 0xE09E#16)
  | .skipKeyNe _ => (0xF0FF#16, 0xE0A1#16)
  | .getDelay _ => (0xF0FF#16, 0xF007#16)
  | .getKey _ => (0xF0FF#16, 0xF00A#16)
  | .setDelay _ => (0xF0FF#16, 0xF015#16)
  | .setSound _ => (0xF0FF#16, 0xF018#16)
  | .addIndex _ => (0xF0FF#16, 0xF01E#16)
  | .indexCharacter _ => (0xF0FF#16, 0xF029#16)
  | .setBcd _ => (0xF0FF#16, 0xF033#16)
  | .regStore _ => (0xF0FF#16, 0xF055#16)
  | .regLoad _ => (0xF0FF#16, 0xF065#16)

/-- The instruction's word matches its row, and the row is one of the table's. -/
def Statement (i : Instr) : Prop :=
  encode i &&& (row i).1 = (row i).2 ∧ opcodeRows.any (fun r => r.mask == (row i).1 && r.bits == (row i).2) = true

theorem match_NNN (op : BitVec 4) (nnn : BitVec 12) : encodeNNN op nnn &&& 0xF000#16 = op ++ 0#12 := by
  rw [and_F000, fieldOp_encodeNNN]

theorem match_XNN (op : BitVec 4) (x : Reg) (nn : Byte) : encodeXNN op x nn &&& 0xF000#16 = op ++ 0#12 := by
  rw [and_F000, fieldOp_encodeXNN]

theorem match_DXYN (op : BitVec 4) (x y : Reg) (n : BitVec 4) : encodeXYN op x y n &&& 0xF000#16 = op ++ 0#12 := by
  rw [and_F000, fieldOp_encodeXYN]

theorem match_XY (op : BitVec 4) (x y : Reg) (n : BitVec 4) :
    encodeXYN op x y n &&& 0xF00F#16 = op ++ 0#8 ++ n := by
  rw [and_F00F, fieldOp_encodeXYN, fieldN_encodeXYN]

theorem match_X (op : BitVec 4) (x : Reg) (sub : Byte) : encodeX op x sub &&& 0xF0FF#16 = op ++ 0#4 ++ sub := by
  rw [and_F0FF, fieldOp_encodeX, fieldNN_encodeX]

theorem clearScreen : Statement .clearScreen := ⟨by decide, by decide⟩
theorem ret : Statement .ret := ⟨by decide, by decide⟩
theorem jump (nnn : BitVec 12) : Statement (.jump nnn) := ⟨match_NNN _ _, rfl⟩
theorem call (nnn : BitVec 12) : Statement (.call nnn) := ⟨match_NNN _ _, rfl⟩
theorem skipEqIm (x : Reg) (nn : Byte) : Statement (.skipEqIm x nn) := ⟨match_XNN _ _ _, rfl⟩
theorem skipNeIm (x : Reg) (nn : Byte) : Statement (.skipNeIm x nn) := ⟨match_XNN _ _ _, rfl⟩
theorem skipEq (x y : Reg) : Statement (.skipEq x y) := ⟨match_XY _ _ _ _, rfl⟩
theorem setIm (x : Reg) (nn : Byte) : Statement (.setIm x nn) := ⟨match_XNN _ _ _, rfl⟩
theorem addIm (x : Reg) (nn : Byte) : Statement (.addIm x nn) := ⟨match_XNN _ _ _, rfl⟩
theorem set (x y : Reg) : Statement (.set x y) := ⟨match_XY _ _ _ _, rfl⟩
theorem or (x y : Reg) : Statement (.or x y) := ⟨match_XY _ _ _ _, rfl⟩
theorem and (x y : Reg) : Statement (.and x y) := ⟨match_XY _ _ _ _, rfl⟩
theorem xor (x y : Reg) : Statement (.xor x y) := ⟨match_XY _ _ _ _, rfl⟩
theorem add (x y : Reg) : Statement (.add x y) := ⟨match_XY _ _ _ _, rfl⟩
theorem sub (x y : Reg) : Statement (.sub x y) := ⟨match_XY _ _ _ _, rfl⟩
theorem shr (x y : Reg) : Statement (.shr x y) := ⟨match_XY _ _ _ _, rfl⟩
theorem subOpp (x y : Reg) : Statement (.subOpp x y) := ⟨match_XY _ _ _ _, rfl⟩
theorem shl (x y : Reg) : Statement (.shl x y) := ⟨match_XY _ _ _ _, rfl⟩
theorem skipNe (x y : Reg) : Statement (.skipNe x y) := ⟨match_XY _ _ _ _, rfl⟩
theorem setIndex (nnn : BitVec 12) : Statement (.setIndex nnn) := ⟨match_NNN _ _, rfl⟩
theorem jumpV0 (nnn : BitVec 12) : Statement (.jumpV0 nnn) := ⟨match_NNN _ _, rfl⟩
theorem randAnd (x : Reg) (nn : Byte) : Statement (.randAnd x nn) := ⟨match_XNN _ _ _, rfl⟩
theorem draw (x y : Reg) (n : BitVec 4) : Statement (.draw x y n) := ⟨match_DXYN _ _ _ _, rfl⟩
theorem skipKeyEq (x : Reg) : Statement (.skipKeyEq x) := ⟨match_X _ _ _, rfl⟩
theorem skipKeyNe (x : Reg) : Statement (.skipKeyNe x) := ⟨match_X _ _ _, rfl⟩
theorem getDelay (x : Reg) : Statement (.getDelay x) := ⟨match_X _ _ _, rfl⟩
theorem getKey (x : Reg) : Statement (.getKey x) := ⟨match_X _ _ _, rfl⟩
theorem setDelay (x : Reg) : Statement (.setDelay x) := ⟨match_X _ _ _, rfl⟩
theorem setSound (x : Reg) : Statement (.setSound x) := ⟨match_X _ _ _, rfl⟩
theorem addIndex (x : Reg) : Statement (.addIndex x) := ⟨match_X _ _ _, rfl⟩
theorem indexCharacter (x : Reg) : Statement (.indexCharacter x) := ⟨match_X _ _ _, rfl⟩
theorem setBcd (x : Reg) : Statement (.setBcd x) := ⟨match_X _ _ _, rfl⟩
theorem regStore (x : Reg) : Statement (.regStore x) := ⟨match_X _ _ _, rfl⟩
theorem regLoad (x : Reg) : Statement (.regLoad x) := ⟨match_X _ _ _, rfl⟩

end Sys2Proof.Laws.TableRow
end

