-- ==== Sys2Proof/Laws/Step.lean ====
section
/-!
SUPPORT. The inversion lemma of `step`: what one machine cycle can do (spec/00_scope.md R14, 60_exceptions.md R189). Claims
about every cycle are case analyses over it.
-/

namespace Sys2Proof.Machine

/-- What one cycle from `s` to `t` was. -/
inductive CycleCase (s t : State) : Prop where
  /-- The run had ended: nothing changed (60_exceptions.md R186). -/
  | ended (h : s.run ≠ .running) (e : t = s)
  /-- A quit request (60_exceptions.md R187). -/
  | quit (hr : s.run = .running) (hq : s.inp.quit = true) (e : t = haltOnQuit s)
  /-- The fetch or the decoder raised a fault (60_exceptions.md R180, R181). -/
  | fetchFault (f : Fault) (hr : s.run = .running) (hq : s.inp.quit = false) (hf : fetchDecode s = .error f)
      (e : t = takeFault f s)
  /-- The instruction took its fault: no timer decay (60_exceptions.md R185). -/
  | execFault (i : Instr) (u : State) (f : Fault) (hr : s.run = .running) (hq : s.inp.quit = false)
      (hf : fetchDecode s = .ok (i, u)) (hm : faultRaised i u = some f) (he : exec i u = .next t)
      (e : t = takeFault f u)
  /-- The instruction completed, and the cycle came to its end (00_scope.md R14 step 6). -/
  | completed (i : Instr) (u v : State) (hr : s.run = .running) (hq : s.inp.quit = false)
      (hf : fetchDecode s = .ok (i, u)) (he : exec i u = .next v) (hk : KeepsControl u v) (e : t = endCycle v)

/-- Every cycle is one of the cases. -/
theorem step_cases {s t : State} (h : step s = .next t) : CycleCase s t := by
  cases hr : s.run with
  | halted =>
    simp only [step, cycle, hr] at h
    cases h
    exact .ended (by simp [hr]) rfl
  | faulted =>
    simp only [step, cycle, hr] at h
    cases h
    exact .ended (by simp [hr]) rfl
  | running =>
    cases hq : s.inp.quit with
    | true =>
      simp only [step, cycle, hr, hq, if_true] at h
      cases h
      exact .quit hr hq rfl
    | false =>
      rw [step_running hr hq] at h
      cases hf : fetchDecode s with
      | error f =>
        rw [hf] at h
        cases h
        exact .fetchFault f hr hq hf rfl
      | ok iu =>
        obtain ⟨i, u⟩ := iu
        rw [hf] at h
        have hur : u.run = .running := by
          rw [(fetchDecode_ok hf).2.2]
          exact hr
        rcases exec_cases i u with ⟨v, he, k⟩ | ⟨f, hm, he⟩
        · simp only [he, finishCycle] at h
          rw [if_neg (by rw [k.run, hur]; simp)] at h
          cases h
          exact .completed i u v hr hq hf he k rfl
        · simp only [he, finishCycle, takeFault_run, if_true] at h
          cases h
          exact .execFault i u f hr hq hf hm he rfl

end Sys2Proof.Machine
end

