-- ==== Sys2Proof/Tests/Slice0.lean ====
section
/-!
SUPPORT. The author's own tests. Expected results come from the spec: the source's examples S1 to S8 and the derived vectors V1
to V8 of spec/95_test_vectors.md, by the numbers given. Then, for each statement that has hypotheses, a state and operands that
meet them all, at the boundary values of each clause.
-/

namespace Sys2Proof.Tests

open Sys2Proof Sys2Proof.Machine

/-! ## What is refused as ill formed -/

theorem test_wf_params_default : defaultParams.wf = true := by decide
theorem test_wf_font_may_end_at_512 : ({ defaultParams with fontBase := 432 } : Params).wf = true := by decide
theorem test_wf_refuses_font_beyond_512 : ({ defaultParams with fontBase := 433 } : Params).wf = false := by decide
theorem test_wf_refuses_stack_depth_0 : (StackDepth.bounded 0).wf = false := by decide
theorem test_wf_refuses_params_without_stack :
    ({ defaultParams with stackDepth := .bounded 0 } : Params).wf = false := by decide
theorem test_wf_accepts_image_of_3584 : imageWf (List.replicate 3584 0xFF#8) = true := by
  rw [imageWf, List.length_replicate]
  decide
theorem test_wf_refuses_image_of_3585 : imageWf (List.replicate 3585 0xFF#8) = false := by
  rw [imageWf, List.length_replicate]
  decide
/-- V8 5. -/
theorem test_load_refuses_image_of_3585 :
    State.load defaultCfg defaultParams (List.replicate 3585 0xFF#8) = .refused (.imageTooLarge 3585) := by
  rw [State.load, test_wf_refuses_image_of_3585, List.length_replicate]
  rfl
theorem test_load_refuses_bad_params :
    State.load defaultCfg { defaultParams with fontBase := 433 } [] = .refused .illegalParameters := by rfl

/-! ## Decoding: one word for each of the 34 patterns (V1), illegal words (V2) -/

theorem test_decode_display_and_control :
    [0x00E0#16, 0x00EE#16, 0x1234#16, 0x2ABC#16, 0x3A05#16, 0x4A05#16, 0x5120#16, 0x9120#16, 0xB210#16, 0xD125#16].map
        decode =
      [.ok .clearScreen, .ok .ret, .ok (.jump 0x234#12), .ok (.call 0xABC#12), .ok (.skipEqIm 10 5#8),
        .ok (.skipNeIm 10 5#8), .ok (.skipEq 1 2), .ok (.skipNe 1 2), .ok (.jumpV0 0x210#12), .ok (.draw 1 2 5#4)] := by
  decide

theorem test_decode_alu :
    [0x6BFF#16, 0x7C01#16, 0x8120#16, 0x8121#16, 0x8122#16, 0x8123#16, 0x8124#16, 0x8125#16, 0x8126#16, 0x8127#16,
        0x812E#16, 0xC10F#16].map decode =
      [.ok (.setIm 11 255#8), .ok (.addIm 12 1#8), .ok (.set 1 2), .ok (.or 1 2), .ok (.and 1 2), .ok (.xor 1 2),
        .ok (.add 1 2), .ok (.sub 1 2), .ok (.shr 1 2), .ok (.subOpp 1 2), .ok (.shl 1 2), .ok (.randAnd 1 15#8)] := by
  decide

theorem test_decode_keys_timers_index :
    [0xE19E#16, 0xE1A1#16, 0xF107#16, 0xF10A#16, 0xF115#16, 0xF118#16, 0xA123#16, 0xF11E#16, 0xF129#16, 0xF133#16,
        0xFF55#16, 0xF065#16].map decode =
      [.ok (.skipKeyEq 1), .ok (.skipKeyNe 1), .ok (.getDelay 1), .ok (.getKey 1), .ok (.setDelay 1), .ok (.setSound 1),
        .ok (.setIndex 0x123#12), .ok (.addIndex 1), .ok (.indexCharacter 1), .ok (.setBcd 1), .ok (.regStore 15),
        .ok (.regLoad 0)] := by
  decide

/-- A word of the decoder's reject list (V2). -/
def rejected (w : Word) : Bool := decide (decode w = .error (.unknownInstruction w))

theorem test_decode_rejects_family_0 :
    [0x0000#16, 0x00E1#16, 0x00EF#16, 0x00FF#16, 0x01E0#16, 0x0123#16, 0x0FFF#16].all rejected = true := by decide
theorem test_decode_rejects_families_5_8_9 :
    [0x5121#16, 0x512F#16, 0x8128#16, 0x8129#16, 0x812A#16, 0x812B#16, 0x812C#16, 0x812D#16, 0x812F#16, 0x9121#16,
      0x912F#16].all rejected = true := by decide
theorem test_decode_rejects_families_E_F :
    [0xE100#16, 0xE19F#16, 0xE1A0#16, 0xE1FF#16, 0xF100#16, 0xF106#16, 0xF108#16, 0xF10B#16, 0xF11F#16, 0xF130#16,
      0xF154#16, 0xF156#16, 0xF175#16, 0xF1FF#16, 0xFFFF#16].all rejected = true := by decide

theorem test_decodeBytes_takes_two_bytes :
    decodeBytes [0xD1#8, 0x25#8, 0x77#8] = .ok (.draw 1 2 5#4, [0x77#8]) := by decide
theorem test_decodeBytes_truncated : decodeBytes [0xD1#8] = .error .truncated := by decide
theorem test_encode_draw : encode (.draw 10 1 12#4) = 0xDA1C#16 := by decide
theorem test_decodeTableWord : decodeTableWord 16 0xF133 = some (.setBcd 1) ∧ decodeTableWord 16 0xF130 = none := by
  decide

/-! ## Reset (R48, R56, R211) -/

/-- The font's first and last byte, the zeros around it, and the cells of a program `12 00` (V8 6). -/
theorem test_load_memory :
    (match State.load defaultCfg defaultParams [0x12#8, 0x00#8] with
      | .next s => [0x04F, 0x050, 0x09F, 0x0A0, 0x200, 0x201, 0xFFF].map s.byteAt
      | _ => []) = [0#8, 0xF0#8, 0x80#8, 0#8, 0x12#8, 0#8, 0#8] := by decide

theorem test_reset_is_an_empty_load : State.load defaultCfg defaultParams [] = .next State.reset := by rfl

/-- The first cycle's sample is free, like any other, and the sample after it is another free one (R40, R212, U12 to U14). -/
theorem test_first_sample_is_free :
    State.reset.inp = Inputs.free 0 ∧ (sampleNext State.reset).inp = Inputs.free 1 := ⟨rfl, rfl⟩

/-- V8 4: the last byte of an image of 3584 bytes lies at 0xFFF. -/
theorem test_load_last_byte_of_the_longest_image (image : List Byte) (h : image.length = 3584) :
    ∃ s, State.load defaultCfg defaultParams image = .next s ∧ s.byteAt 0xFFF = image.getD 3583 0#8 := by
  have hw : imageWf image = true := decide_eq_true h.le
  refine ⟨_, by rw [State.load, hw]; rfl, ?_⟩
  refine (Memory.get_setBytes (Memory.wf_nil defaultParams) 512 image (by omega) 0xFFF).trans ?_
  rw [if_pos (by omega)]

/-! ## One cycle of one instruction -/

/-- No key held, no quit request, random byte 0, no tick: the vectors' inputs where they name none. -/
def idle : Inputs := ⟨0#16, false, 0#8, 0⟩

/-- Reset, with this cycle's and the next cycle's sample given. -/
def base : State := { State.reset with inp := idle, env := [idle] }

/-- Registers with given values. -/
def withRegs (l : List (Reg × Byte)) (s : State) : State := l.foldl (fun s p => s.setReg p.1 p.2) s

/-- Memory with given bytes. -/
def withBytes (a : Nat) (bs : List Byte) (s : State) : State := s.setMem (Memory.setBytes s.params s.mem a bs)

/-- One cycle on the word placed for the next fetch. -/
def run (w : Nat) (s : State) : Host.Outcome State Fault Refusal := step (s.withFetchWord 16 w)

/-- A view of the next state. -/
def view {α : Type} (f : State → α) : Host.Outcome State Fault Refusal → Option α
  | .next t => some (f t)
  | _ => none

/-- Run status and fault. -/
def ending (s : State) : RunStatus × Option Fault := s.status

/-- Pixels of a frame at given places. -/
def pixels (f : Frame) (l : List (Nat × Nat)) : List Bool := l.map fun p => f.get p.1 p.2

/-! ### Control transfer (V3) -/

theorem test_jump : view State.pc (run 0x1234 base) = some 0x234#16 := by decide
theorem test_jump_4095_then_faults :
    (match run 0x1FFF base with
      | .next t => view ending (step { t with inp := idle })
      | _ => none) = some (.faulted, some (.outOfBoundsAccess 4096)) := by decide
theorem test_call :
    view (fun t => (t.pc, t.stack)) (run 0x2300 (base.setPc 0x202#16)) = some (0x300#16, [0x204#16]) := by decide
theorem test_call_full :
    view ending (run 0x2200 (base.setStack (List.replicate 16 0x202#16))) =
      some (.faulted, some (.stackOverflow 0x200#16)) := by decide
theorem test_ret :
    view (fun t => (t.pc, t.stack)) (run 0x00EE ((base.setPc 0x400#16).setStack [0x30A#16, 0x204#16])) =
      some (0x30A#16, [0x204#16]) := by decide
theorem test_ret_empty : view ending (run 0x00EE base) = some (.faulted, some (.stackUnderflow 0x200#16)) := by decide
theorem test_jumpV0 : view State.pc (run 0xB210 (withRegs [(0, 0x04#8), (2, 0x20#8)] base)) = some 0x214#16 := by decide
theorem test_jumpV0_quirk :
    view State.pc (run 0xBFFF { withRegs [(15, 0xFF#8)] base with cfg := { defaultCfg with newJumpBehavior := true } }) =
      some 0x10FE#16 := by decide
theorem test_skipEqIm : [5#8, 6#8].map (fun v => view State.pc (run 0x3A05 (withRegs [(10, v)] base))) =
    [some 0x204#16, some 0x202#16] := by decide
theorem test_skipNeIm : [5#8, 6#8].map (fun v => view State.pc (run 0x4A05 (withRegs [(10, v)] base))) =
    [some 0x202#16, some 0x204#16] := by decide
theorem test_skipEq : [7#8, 8#8].map (fun v => view State.pc (run 0x5120 (withRegs [(1, 7#8), (2, v)] base))) =
    [some 0x204#16, some 0x202#16] := by decide
theorem test_skipNe : [7#8, 8#8].map (fun v => view State.pc (run 0x9120 (withRegs [(1, 7#8), (2, v)] base))) =
    [some 0x202#16, some 0x204#16] := by decide
/-- V3 22: a skip at 0xFFE leaves `pc` beyond memory. -/
theorem test_skip_beyond_memory : view State.pc (run 0x3100 (base.setPc 0xFFE#16)) = some 0x1002#16 := by decide

/-! ### ALU (S4, S5, V4) -/

/-- Registers 1 and 15 after a word, from registers 1, 2 and 15. -/
def alu (w : Nat) (a b f : Byte) : Option (Byte × Byte) :=
  view (fun t => (t.reg 1, t.reg 15)) (run w (withRegs [(1, a), (2, b), (15, f)] base))

/-- The same under the old-shift quirk. -/
def oldShift (w : Nat) (a b : Byte) : Option (Byte × Byte) :=
  view (fun t => (t.reg 1, t.reg 15))
    (run w { withRegs [(1, a), (2, b)] base with cfg := { defaultCfg with oldShiftBehavior := true } })

theorem test_setIm : alu 0x61FF 0#8 0#8 1#8 = some (255#8, 1#8) := by decide
theorem test_addIm : alu 0x71FF 1#8 0#8 0#8 = some (0#8, 0#8) := by decide
theorem test_set : alu 0x8120 0xC5#8 0x6A#8 1#8 = some (0x6A#8, 1#8) := by decide
theorem test_or : alu 0x8121 0xC5#8 0x3A#8 1#8 = some (0xFF#8, 1#8) := by decide
theorem test_and : alu 0x8122 0xC5#8 0x6A#8 1#8 = some (0x40#8, 1#8) := by decide
theorem test_xor : alu 0x8123 0xC5#8 0x6A#8 1#8 = some (0xAF#8, 1#8) := by decide
theorem test_add : [alu 0x8124 250#8 10#8 0#8, alu 0x8124 10#8 20#8 0#8, alu 0x8124 200#8 55#8 1#8] =
    [some (4#8, 1#8), some (30#8, 0#8), some (255#8, 0#8)] := by decide
theorem test_sub : [alu 0x8125 10#8 5#8 0#8, alu 0x8125 5#8 10#8 1#8, alu 0x8125 7#8 7#8 0#8] =
    [some (5#8, 1#8), some (251#8, 0#8), some (0#8, 1#8)] := by decide
theorem test_subOpp : [alu 0x8127 10#8 5#8 1#8, alu 0x8127 5#8 10#8 0#8, alu 0x8127 7#8 7#8 0#8] =
    [some (251#8, 0#8), some (5#8, 1#8), some (0#8, 1#8)] := by decide
theorem test_shr : [alu 0x8126 0x05#8 0xF0#8 0#8, oldShift 0x8126 0x05#8 0xF0#8] =
    [some (0x02#8, 1#8), some (0x78#8, 0#8)] := by decide
theorem test_shl : [alu 0x812E 0x81#8 0x0F#8 0#8, oldShift 0x812E 0x81#8 0x0F#8] =
    [some (0x02#8, 1#8), some (0x1E#8, 0#8)] := by decide
theorem test_randAnd :
    view (fun t => t.reg 1) (run 0xC10F { base with inp := { idle with rand := 0xA7#8 } }) = some 0x07#8 := by
  decide
/-- V4 38, 40: the flag is written last, and read as an operand before. -/
theorem test_add_flag_register :
    view (fun t => t.reg 15) (run 0x8F14 (withRegs [(15, 200#8), (1, 100#8)] base)) = some 1#8 ∧
      alu 0x81F4 250#8 0#8 7#8 = some (1#8, 1#8) := by decide

/-! ### Index register and memory (V5) -/

/-- `I` and register 15 after AddIndex of register 1. -/
def addIdx (c : Cfg) (p : Params) (i : Word) (a f : Byte) : Option (Word × Byte) :=
  view (fun t => (t.index, t.reg 15))
    (run 0xF11E { (withRegs [(1, a), (15, f)] base).setIndex i with cfg := c, params := p })

/-- The index-overflow quirk. -/
def flagCfg : Cfg := { defaultCfg with indexOverflowFlag := true }
/-- The three bytes at `a`. -/
def three (a : Nat) (s : State) : List Byte := [s.byteAt a, s.byteAt (a + 1), s.byteAt (a + 2)]
/-- The old store/load quirk. -/
def oldMove (s : State) : State := { s with cfg := { defaultCfg with oldStoreLoadBehavior := true } }

theorem test_setIndex : view State.index (run 0xAFFF base) = some 0x0FFF#16 := by decide
theorem test_addIndex_quirk :
    [addIdx flagCfg defaultParams 0x0FFE#16 2#8 0#8, addIdx defaultCfg defaultParams 0x0FFE#16 2#8 0#8,
        addIdx flagCfg defaultParams 0xFFFF#16 2#8 0#8] =
      [some (0x1000#16, 1#8), some (0x1000#16, 0#8), some (1#16, 0#8)] := by decide
theorem test_addIndex_clears :
    [addIdx flagCfg defaultParams 0x0FFE#16 1#8 1#8,
        addIdx flagCfg { defaultParams with indexOverflowClears := true } 0x0FFE#16 1#8 1#8] =
      [some (0x0FFF#16, 1#8), some (0x0FFF#16, 0#8)] := by decide
theorem test_indexCharacter :
    [0x0A#8, 0xFA#8, 0x00#8, 0x0F#8].map (fun v => view State.index (run 0xF129 (withRegs [(1, v)] base))) =
      [some 0x082#16, some 0x082#16, some 0x050#16, some 0x09B#16] := by decide
theorem test_setBcd :
    [7#8, 234#8].map (fun v => view (three 0x300) (run 0xF133 ((withRegs [(1, v)] base).setIndex 0x300#16))) =
      [some [0#8, 0#8, 7#8], some [2#8, 3#8, 4#8]] := by decide
theorem test_setBcd_at_the_top :
    view (three 0xFFD) (run 0xF133 ((withRegs [(1, 255#8)] base).setIndex 0xFFD#16)) = some [2#8, 5#8, 5#8] ∧
      view ending (run 0xF133 (base.setIndex 0xFFE#16)) = some (.faulted, some (.outOfBoundsAccess 4096)) := by decide
theorem test_regStore :
    view (fun t => (three 0x400 t, t.byteAt 0x403, t.index))
        (run 0xF255 (oldMove ((withRegs [(0, 0x11#8), (1, 0x22#8), (2, 0x33#8), (3, 0x44#8)] base).setIndex 0x400#16))) =
      some ([0x11#8, 0x22#8, 0x33#8], 0#8, 0x403#16) := by decide
theorem test_regStore_beyond :
    view ending (run 0xFF55 (base.setIndex 0xFF1#16)) = some (.faulted, some (.outOfBoundsAccess 4096)) := by decide
theorem test_regLoad :
    view (fun t => ([t.reg 0, t.reg 1, t.reg 2, t.reg 3], t.index))
        (run 0xF265 ((withBytes 0x400 [0xAA#8, 0xBB#8, 0xCC#8, 0xDD#8] (withRegs [(3, 0x99#8)] base)).setIndex 0x400#16)) =
      some ([0xAA#8, 0xBB#8, 0xCC#8, 0x99#8], 0x400#16) := by decide
theorem test_regLoad_beyond :
    view ending (run 0xF165 (base.setIndex 0xFFF#16)) = some (.faulted, some (.outOfBoundsAccess 4096)) := by decide

/-! ### Display (V6) -/

theorem test_clearScreen :
    view (fun t => (pixels t.fb [(1, 3), (31, 63)], t.reg 15, t.presented.length))
        (run 0x00E0 ((withRegs [(15, 1#8)] base).setFb ((Frame.blank.toggle 1 3).toggle 31 63))) =
      some ([false, false], 1#8, 0) := by decide
/-- V6 5: `C0 20` at (column 2, row 1) over pixels (1, 3) and (2, 5). -/
theorem test_draw_collides :
    view (fun t => (pixels t.fb [(1, 2), (1, 3), (2, 4), (2, 5)], t.reg 15, t.presented.length))
        (run 0xD012 ((withBytes 0x300 [0xC0#8, 0x20#8] (withRegs [(0, 2#8), (1, 1#8)] base)).setIndex 0x300#16
          |>.setFb ((Frame.blank.toggle 1 3).toggle 2 5))) =
      some ([true, false, true, true], 1#8, 1) := by decide
/-- V6 4: the origin wraps, the rest of the row is clipped. -/
theorem test_draw_wraps_and_clips :
    view (fun t => (pixels t.fb [(31, 63), (31, 0), (0, 63), (0, 0)], t.reg 15))
        (run 0xD011 ((withBytes 0x300 [0xFF#8] (withRegs [(0, 255#8), (1, 255#8)] base)).setIndex 0x300#16)) =
      some ([true, false, false, false], 0#8) := by decide

/-! ### Keys and timers (S7, S8, V7) -/

/-- The reset state with held keys, and ticks. -/
def withInputs (keys : BitVec 16) (ticks : Nat) (s : State) : State :=
  { s with inp := { idle with keys := keys, ticks := ticks } }

theorem test_skipKeyEq :
    [(5#8, 0x0020#16), (5#8, 0xFFDF#16), (0x25#8, 0x0020#16)].map
        (fun p => view State.pc (run 0xE19E (withInputs p.2 0 (withRegs [(1, p.1)] base)))) =
      [some 0x204#16, some 0x202#16, some 0x204#16] := by decide
theorem test_skipKeyNe :
    [0x0020#16, 0x0000#16].map (fun k => view State.pc (run 0xE1A1 (withInputs k 0 (withRegs [(1, 5#8)] base)))) =
      [some 0x202#16, some 0x204#16] := by decide
theorem test_getKey :
    view (fun t => (t.pc, t.reg 1)) (run 0xF10A (withInputs 0x8100#16 0 (withRegs [(1, 0x77#8)] base))) =
      some (0x202#16, 0x08#8) := by decide
theorem test_getKey_waits_while_timers_run :
    view (fun t => (t.pc, t.reg 1, t.dt))
        (run 0xF10A (withInputs 0#16 2 ((withRegs [(1, 0x77#8)] base).setDt 9#8))) =
      some (0x200#16, 0x77#8, 7#8) := by decide
theorem test_setDelay_decays_in_the_same_cycle :
    view State.dt (run 0xF115 (withInputs 0#16 3 (withRegs [(1, 10#8)] base))) = some 7#8 := by decide
theorem test_getDelay_reads_before_the_decay :
    view (fun t => (t.reg 1, t.dt)) (run 0xF107 (withInputs 0#16 3 (base.setDt 10#8))) = some (10#8, 7#8) := by decide
theorem test_setSound :
    [0, 1].map (fun k => view (fun t => (t.st, t.tone)) (run 0xF118 (withInputs 0#16 k (withRegs [(1, 1#8)] base)))) =
      [some (1#8, true), some (0#8, false)] := by decide
/-- S8. -/
theorem test_timer_decay :
    [0, 1, 5, 1000].map (fun k => view (fun t => (t.dt, t.st, t.presented.length))
        (run 0x6000 (withInputs 0#16 k ((base.setDt 2#8).setSt 200#8)))) =
      [some (2#8, 200#8, 0), some (1#8, 199#8, 1), some (0#8, 195#8, 1), some (0#8, 0#8, 1)] := by decide

/-! ### Quit, end of run, an unassigned word (V8) -/

theorem test_quit :
    step { base with inp := { idle with quit := true, ticks := 3 }, pc := 0xFFFF#16, dt := 5#8 } =
      .next { base with
        inp := { idle with quit := true, ticks := 3 }, pc := 0xFFFF#16, dt := 5#8, run := .halted } := by rfl
theorem test_empty_program : view ending (step { State.reset with inp := idle }) = some (.faulted, some (.unknownInstruction 0#16)) := by
  decide
theorem test_straps : strapBits (withStraps defaultCfg 0b1010#4) = 0b1010#4 := by decide

/-! ## Witnesses: states and operands that meet a statement's hypotheses together -/

/-- `base` with a word at 0x200. -/
def cyc (w : Nat) : State := base.withFetchWord 16 w

/-- The same with a word at 4094, the last address a fetch succeeds at. -/
def cycTop (w : Nat) : State := (base.setPc 4094#16).withFetchWord 16 w

/-- The state an instruction at `s.pc` is executed in. -/
def fetched (s : State) : State := s.setPc (s.pc + 2#16)

/-- The word a cycle fetches. -/
def nextWord (s : State) : Word := wordOfBytes (s.byteAt s.pc.toNat) (s.byteAt (s.pc.toNat + 1))

/-- A state after a quit, and after a fault was taken. -/
def halted : State := haltOnQuit base
/-- A state after a fault was taken. -/
def faulted : State := takeFault (.stackUnderflow 0x200#16) base

theorem test_witness_DecodeOfEncodeIsTheInstruction : Instr.wf (.draw 15 15 15#4) = true := by decide

theorem test_witness_EncodeOfDecodeIsTheWord : decode 0xFF65#16 = .ok (.regLoad 15) := by decide

/-- Both clauses, at neighbouring words. -/
theorem test_witness_DecodeAcceptsExactlyTheTable :
    opcodeRows.any (fun r => r.matches 0x8127#16) = true ∧ opcodeRows.any (fun r => r.matches 0x8128#16) = false := by
  decide

/-- At 0x200 and at the last fetchable address. -/
theorem test_witness_StepRunsTheDecodedInstruction :
    ∀ s ∈ [cyc 0x6105, cycTop 0x6105], s.run = .running ∧ s.inp.quit = false ∧ s.pc.toNat + 1 < 4096 ∧
      decode (nextWord s) = .ok (.setIm 1 5#8) := by decide

/-- With no tick and with ticks, with an environment's sample to come. -/
theorem test_witness_CompletedCycleDecaysTheTimers :
    ∀ s ∈ [cyc 0x00E0, withInputs 0#16 1 (cyc 0x00E0)], s.run = .running ∧ s.inp.quit = false ∧
      s.pc.toNat + 1 < 4096 ∧ decode (nextWord s) = .ok .clearScreen ∧ s.env = [idle] ∧
      view State.run (exec .clearScreen (fetched s)) = some .running := by decide

theorem test_witness_FaultEndsTheCycle :
    (cyc 0x00EE).run = .running ∧ (cyc 0x00EE).inp.quit = false ∧ (cyc 0x00EE).pc.toNat + 1 < 4096 ∧
      decode (nextWord (cyc 0x00EE)) = .ok .ret ∧
      view State.run (exec .ret (fetched (cyc 0x00EE))) = some .faulted := by decide

theorem test_witness_FetchOutOfRangeTakesOutOfBounds :
    ∀ s ∈ [base.setPc 4095#16, base.setPc 4096#16, base.setPc 65535#16],
      s.run = .running ∧ s.inp.quit = false ∧ 4095 ≤ s.pc.toNat := by decide

theorem test_witness_UnassignedWordTakesUnknownInstruction :
    base.run = .running ∧ base.inp.quit = false ∧ base.pc.toNat + 1 < 4096 ∧
      opcodeRows.any (fun r => r.matches (nextWord base)) = false := by decide

theorem test_witness_PlacedWordIsTheOneTheNextCycleRuns :
    MemoryCanonical (cyc 0x6105) ∧ decode 0xF133#16 = .ok (.setBcd 1) := by decide

theorem test_witness_QuitHaltsBeforeTheFetch :
    base.run = .running ∧ ({ base with inp := { idle with quit := true } } : State).inp.quit = true := by decide

theorem test_witness_EndedRunChangesNothing : halted.run ≠ .running ∧ faulted.run ≠ .running := by decide

/-- An instruction that completes and one that takes its fault, from a running state. -/
theorem test_witness_EachInstructionRaisesOnlyItsFault :
    base.run = .running ∧ view State.run (exec .clearScreen base) = some .running ∧
      view ending (exec .ret base) = some (.faulted, some (.stackUnderflow 0x1FE#16)) := by decide

/-- A destination register, and the flag register of an instruction that does not name it. -/
theorem test_witness_OnlyListedInstructionsWriteRegisters :
    base.run = .running ∧
      view (fun t => (t.run, t.reg 1)) (exec (.setIm 1 5#8) base) = some (.running, 5#8) ∧ base.reg 1 = 0#8 ∧
      view (fun t => (t.run, t.reg 15)) (exec (.sub 1 2) base) = some (.running, 1#8) ∧ base.reg 15 = 0#8 := by decide

/-- One instruction for each clause. -/
theorem test_witness_OnlyListedInstructionsWriteOtherState :
    base.run = .running ∧
      view (fun t => (t.run, t.stack)) (exec (.call 0x300#12) base) = some (.running, [0x200#16]) ∧
      view (fun t => (t.run, t.fb.get 0 0)) (exec (.draw 0 0 1#4) (base.setIndex 0x50#16)) = some (.running, true) ∧
      view (fun t => (t.run, t.dt)) (exec (.setDelay 1) (withRegs [(1, 9#8)] base)) = some (.running, 9#8) ∧
      view (fun t => (t.run, t.st)) (exec (.setSound 1) (withRegs [(1, 9#8)] base)) = some (.running, 9#8) ∧
      view (fun t => (t.run, t.index)) (exec (.regLoad 0) (oldMove base)) = some (.running, 1#16) ∧
      view (fun t => (t.run, t.byteAt 2)) (exec (.setBcd 1) (withRegs [(1, 9#8)] base)) = some (.running, 9#8) := by
  decide

/-- An outcome with a view is a next state. -/
theorem next_of_view {o : Host.Outcome State Fault Refusal} (h : view (fun _ => ()) o = some ()) : ∃ t, o = .next t := by
  cases o with
  | next t => exact ⟨t, rfl⟩
  | fault f => exact nomatch h
  | refused r => exact nomatch h

/-- A cycle that answers a next state, from a state that meets every invariant. -/
theorem test_witness_of_the_invariants :
    (∃ t, step (cyc 0x2300) = .next t) ∧ MemoryCanonical (cyc 0x2300) ∧ StackWithinCapacity (cyc 0x2300) ∧
      FaultRecordMatches (cyc 0x2300) ∧ PcInRange (cyc 0x2300) :=
  ⟨next_of_view (by decide), by decide, by decide, by decide, fun _ => ⟨by decide, nofun⟩⟩

/-- ConfigurationIsConstant, TimingAndCosmeticNumbersAreInert, RunEndsOnlyByQuitOrFault: a cycle that completes, one that faults, one that quits. -/
theorem test_witness_of_cycles :
    (∃ t, step (cyc 0x00E0) = .next t) ∧ (∃ t, step base = .next t) ∧ ∃ t, step halted = .next t :=
  ⟨next_of_view (by decide), next_of_view (by decide), next_of_view (by decide)⟩

/-- Both clauses at once: an instruction that reads neither input. -/
theorem test_witness_InputsAreReadOnlyByTheirInstructions :
    (∃ t, exec .clearScreen base = .next t) ∧ (¬ ∃ x nn, Instr.clearScreen = .randAnd x nn) ∧
      ¬ ∃ x, Instr.clearScreen = .skipKeyEq x ∨ Instr.clearScreen = .skipKeyNe x ∨ Instr.clearScreen = .getKey x :=
  ⟨⟨_, rfl⟩, by simp, by simp⟩

/-- Legal parameters with the empty image; the addresses beside font and image; the longest and the shortest refused image
are test_load_last_byte_of_the_longest_image and test_load_refuses_image_of_3585. -/
theorem test_witness_LoadPlacesFontAndImage :
    ([0x12#8] : List Byte).length ≤ 3584 ∧ defaultParams.wf = true ∧ 0 < ([0x12#8] : List Byte).length ∧ 79 < 80 ∧
      (∀ a ∈ [0, 0x4F, 0xA0, 511, 513, 4095], (a < 512 ∨ 512 + 1 ≤ a) ∧ (a < 0x50 ∨ 0x50 + 80 ≤ a)) ∧
      3584 < (List.replicate 3585 0#8).length :=
  ⟨by decide, by decide, by decide, by decide, by decide, by rw [List.length_replicate]; decide⟩

theorem test_witness_MemoryReadsBackWhatWasWritten : MemoryCanonical (cyc 0x6105) ∧ 4095 < 4096 ∧ 4096 ≤ 4096 := by decide

/-- The five flag-producing statements: destinations on both ends of the range. -/
theorem test_witness_of_flag_destinations : (0 : Reg) ≠ 15 ∧ (14 : Reg) ≠ 15 := by decide

/-- One entry short of a full stack, and an unbounded one. -/
theorem test_witness_CallPushesTheReturnAddress :
    (∀ n, base.params.stackDepth = .bounded n → (List.replicate 15 0x200#16).length < n) ∧
      ∀ n, ({ defaultParams with stackDepth := .unbounded } : Params).stackDepth = .bounded n → 100 < n :=
  ⟨fun _ h => by cases h; decide, nofun⟩

theorem test_witness_CallOnAFullStackTakesStackOverflow :
    base.params.stackDepth = .bounded 16 ∧ (base.setStack (List.replicate 16 0x202#16)).stack.length = 16 := by decide

theorem test_witness_ReturnPopsIntoPc : (base.setStack [0x204#16]).stack = 0x204#16 :: [] := by decide

theorem test_witness_PopTakesTheTopOrUnderflows :
    (base.setStack [0x204#16, 0x206#16]).stack = 0x204#16 :: [0x206#16] ∧ base.stack = [] := by decide

theorem test_witness_ReturnOnAnEmptyStackTakesStackUnderflow : base.stack = [] := by decide

theorem test_witness_JumpV0AddsTheSelectedRegister :
    defaultCfg.newJumpBehavior = false ∧ ({ defaultCfg with newJumpBehavior := true } : Cfg).newJumpBehavior = true ∧
      (15 : Reg).val = (0xFFF#12).toNat / 256 := by decide

theorem test_witness_RegisterSkipsTestTheirCondition :
    base.reg 1 = 0#8 ∧ base.reg 1 ≠ 1#8 ∧ base.reg 1 = base.reg 2 ∧
      (withRegs [(1, 255#8)] base).reg 1 ≠ (withRegs [(1, 255#8)] base).reg 2 := by decide

/-- The new `I` at 4096 and at 4095, under the quirk and without it, with both values of the parameter. -/
theorem test_witness_AddIndexAddsAndFlags :
    defaultCfg.indexOverflowFlag = false ∧ flagCfg.indexOverflowFlag = true ∧ defaultParams.indexOverflowClears = false ∧
      addIdx flagCfg defaultParams 0x0FFE#16 2#8 0#8 = some (4096#16, 1#8) ∧
      addIdx flagCfg { defaultParams with indexOverflowClears := true } 0x0FFE#16 1#8 1#8 = some (4095#16, 0#8) := by
  decide

theorem test_witness_IndexCharacterPointsAtTheGlyph :
    base.params.wf = true ∧ ({ defaultParams with fontBase := 432 } : Params).wf = true := by decide

theorem test_witness_SetBcdStoresThreeDigits :
    MemoryCanonical (cyc 0xF133) ∧ (base.setIndex 4093#16).index.toNat + 2 < 4096 := by decide

/-- RegStore and RegLoad: the shortest and the longest transfer that end at 4095, with and without the quirk. -/
theorem test_witness_of_register_transfers :
    MemoryCanonical (cyc 0xFF55) ∧ (base.setIndex 4095#16).index.toNat + (0 : Reg).val < 4096 ∧
      (base.setIndex 4080#16).index.toNat + (15 : Reg).val < 4096 ∧
      base.cfg.oldStoreLoadBehavior = false ∧ (oldMove base).cfg.oldStoreLoadBehavior = true := by decide

/-- The first `I` of each clause, and `I` itself beyond memory. -/
theorem test_witness_MemoryInstructionsTakeOutOfBounds :
    4096 ≤ (base.setIndex 4094#16).index.toNat + 2 ∧ 4096 ≤ (base.setIndex 4096#16).index.toNat + (0 : Reg).val ∧
      4096 ≤ (base.setIndex 4081#16).index.toNat + (15 : Reg).val ∧ (1#4 : BitVec 4) ≠ 0#4 ∧
      4096 < (base.setIndex 4096#16).index.toNat + (1#4).toNat ∧
      4096 < (base.setIndex 4082#16).index.toNat + (15#4).toNat := by decide

/-- Both cases of the hypothesis at their bounds; a Draw that collides and one that does not are test_draw_collides and
test_draw_wraps_and_clips. -/
theorem test_witness_DrawTogglesTheSprite :
    (∀ n ∈ [0#4], n = 0#4 ∨ (base.setIndex 65535#16).index.toNat + n.toNat ≤ 4096) ∧
      (base.setIndex 4081#16).index.toNat + (15#4).toNat ≤ 4096 := by decide

/-- A Draw on a blank frame that lights a pixel. -/
theorem test_witness_DrawTwiceRestoresTheFrame :
    (base.setIndex 0x50#16).index.toNat + (5#4).toNat ≤ 4096 ∧ (base.setIndex 0x50#16).fb = Frame.blank ∧
      view (fun t => t.fb.get 0 0) (exec (.draw 0 0 5#4) (base.setIndex 0x50#16)) = some true := by decide

theorem test_witness_KeySkipsTestTheSelectedKey :
    (withInputs 0x0020#16 0 (withRegs [(1, 0xF5#8)] base)).inp.keys.getLsbD (0xF5 % 16) = true ∧
      base.inp.keys.getLsbD ((base.reg 1).toNat % 16) = false := by decide

/-- No key; keys 8 and 15, of which 8 is the lowest. -/
theorem test_witness_GetKeyWaitsOrTakesTheLowestKey :
    base.inp.keys = 0#16 ∧ (0x8100#16).getLsbD 8 = true ∧ ∀ j, j < 8 → (0x8100#16).getLsbD j = false := by decide

theorem test_witness_TimerInstructionsMoveTheTimers : base.run = .running := by decide

end Sys2Proof.Tests
end

section
/-!
PROOFS. The scope of the machine (spec/00_scope.md): the order of a cycle (R14), and what the configuration record is to it
(R9, R10). First the equations of `step`, one per way a cycle can go; then the three obligations.
-/

namespace Sys2Proof.Machine

/-! ## The equations of `step`: the converse of `step_cases` -/

/-- The cycle of a run that has ended (60_exceptions.md R186). -/
theorem step_of_ended {s : State} (h : s.run ≠ .running) : step s = .next s := by
  cases hr : s.run with
  | running => exact absurd hr h
  | halted => simp only [step, cycle, hr]
  | faulted => simp only [step, cycle, hr]

/-- The cycle of a quit request (60_exceptions.md R187). -/
theorem step_of_quit {s : State} (hr : s.run = .running) (hq : s.inp.quit = true) : step s = .next (haltOnQuit s) := by
  simp only [step, cycle, hr, hq, if_true]

/-- The cycle whose fetch or decode raises a fault (60_exceptions.md R180, R181). -/
theorem step_of_fetchFault {s : State} {f : Fault} (hr : s.run = .running) (hq : s.inp.quit = false)
    (hf : fetchDecode s = .error f) : step s = .next (takeFault f s) := by
  rw [step_running hr hq, hf]

/-- The cycle that reaches the execute step. -/
theorem step_of_fetched {s u : State} {i : Instr} (hr : s.run = .running) (hq : s.inp.quit = false)
    (hf : fetchDecode s = .ok (i, u)) : step s = finishCycle (exec i u) := by
  rw [step_running hr hq, hf]

/-- Nothing is left of a cycle whose instruction took a fault (60_exceptions.md R185). -/
theorem finishCycle_of_faulted {t : State} (h : t.run = .faulted) : finishCycle (.next t) = .next t :=
  if_pos h

/-- The end of a cycle whose instruction took none (00_scope.md R14 step 6). -/
theorem finishCycle_of_not_faulted {t : State} (h : t.run ≠ .faulted) : finishCycle (.next t) = .next (endCycle t) :=
  if_neg h

/-- The fetch and the decoder change `pc` only (00_scope.md R14 steps 2 to 4). -/
theorem KeepsControl.fetchDecode {s u : State} {i : Instr} (h : fetchDecode s = .ok (i, u)) : KeepsControl s u := by
  obtain ⟨-, -, rfl⟩ := fetchDecode_ok h
  exact ⟨rfl, rfl, rfl, rfl, rfl, rfl, rfl⟩

/-! ## The order of a cycle, and the constants of a run -/

/-- Every instruction is well formed (30_encoding.md R77). -/
theorem instr_wf (i : Instr) : i.wf = true := by
  cases i <;> rfl

/-- Settles O6: the fetch and decode of the two bytes at `pc`, put into the equation of a cycle that reaches the execute
step. -/
theorem stepRunsTheDecodedInstruction : Obligations.StepRunsTheDecodedInstruction := by
  intro s i hr hq hp hd
  exact ⟨instr_wf i, step_of_fetched hr hq (fetchDecode_of_decode hp hd)⟩

/-- Settles O19, by the ways a cycle can go: each ends in an operation that keeps `cfg` and `params`. -/
theorem configurationIsConstant : Obligations.ConfigurationIsConstant := by
  intro s t h
  cases step_cases h with
  | ended _ e => rw [e]; exact ⟨rfl, rfl⟩
  | quit _ _ e => rw [e]; exact ⟨haltOnQuit_cfg s, haltOnQuit_params s⟩
  | fetchFault f _ _ _ e => rw [e]; exact ⟨takeFault_cfg f s, takeFault_params f s⟩
  | execFault i u f _ _ hf _ _ e =>
    have hu := KeepsControl.fetchDecode hf
    rw [e, takeFault_cfg, takeFault_params]
    exact ⟨hu.cfg, hu.params⟩
  | completed i u v _ _ hf _ hk e =>
    have hv := (KeepsControl.fetchDecode hf).trans hk
    rw [e, endCycle_cfg, endCycle_params]
    exact ⟨hv.cfg, hv.params⟩

/-! ## The numbers of the configuration record that no rule reads

Every part of a cycle commutes with an exchange of those numbers: it reads the four straps of `cfg` and nothing else of
it. -/

/-- The four numbers of the configuration record: timing (70_reset_and_hazards.md R222, 60_exceptions.md R196) and what is
"cosmetic only" (00_scope.md R9). -/
structure InertNumbers where
  instructionsPerSecond : Nat
  timerPeriodMs : Nat
  displayScale : Int
  volume : Fin 101

/-- The state with other values of the four numbers. -/
def State.withNumbers (s : State) (n : InertNumbers) : State :=
  { s with cfg := { s.cfg with
      instructionsPerSecond := n.instructionsPerSecond, timerPeriodMs := n.timerPeriodMs,
      displayScale := n.displayScale, volume := n.volume } }

/-- A fetch and decode reads `pc` and memory only. -/
theorem fetchDecode_withNumbers (s : State) (n : InertNumbers) :
    fetchDecode (s.withNumbers n) = (fetchDecode s).map fun iu => (iu.1, iu.2.withNumbers n) := by
  have hm : memRead2 (s.withNumbers n) (s.withNumbers n).pc.toNat = memRead2 s s.pc.toNat := rfl
  unfold fetchDecode
  rw [hm]
  cases memRead2 s s.pc.toNat with
  | error f => rfl
  | ok w => cases hd : decode w <;> simp only [hd] <;> rfl

/-- RegStore and RegLoad read their strap, not the numbers. -/
theorem advanceIndex_withNumbers (s : State) (x : Reg) (n : InertNumbers) :
    advanceIndex (s.withNumbers n) x = (advanceIndex s x).withNumbers n := by
  rw [advanceIndex_eq, advanceIndex_eq]
  rfl

/-- AddIndex's flag reads its strap and a parameter, not the numbers. -/
theorem writeIndexFlag_withNumbers (r : Word) (s : State) (n : InertNumbers) :
    writeIndexFlag r (s.withNumbers n) = (writeIndexFlag r s).withNumbers n := by
  have hc : (s.withNumbers n).cfg.indexOverflowFlag = s.cfg.indexOverflowFlag := rfl
  have hp : (s.withNumbers n).params = s.params := rfl
  unfold writeIndexFlag
  rw [hc, hp]
  split
  · split
    · rfl
    · split <;> rfl
  · rfl

theorem setRegValues_withNumbers (s : State) (i : Nat) (bs : List Byte) (n : InertNumbers) :
    setRegValues (s.withNumbers n) i bs = (setRegValues s i bs).withNumbers n := by
  induction bs generalizing s i with
  | nil => rfl
  | cons b rest ih => exact ih (s.setReg (regOf i) b) (i + 1)

theorem regValues_withNumbers (s : State) (i k : Nat) (n : InertNumbers) :
    regValues (s.withNumbers n) i k = regValues s i k := by
  induction k generalizing i with
  | zero => rfl
  | succ k ih => exact congrArg (s.reg (regOf i) :: ·) (ih (i + 1))

/-- An instruction does the same whatever the numbers are: `answers` takes its meaning from the two states, and where it
has cases, the same condition on either state selects the case. -/
theorem exec_withNumbers {i : Instr} {s t : State} (n : InertNumbers) (h : exec i s = .next t) :
    exec i (s.withNumbers n) = .next (t.withNumbers n) := by
  have answers : ∀ {u}, exec i s = .next u → exec i (s.withNumbers n) = .next (u.withNumbers n) →
      exec i (s.withNumbers n) = .next (t.withNumbers n) := by
    intro u hu hn
    rwa [Host.Outcome.next.inj (h.symm.trans hu)]
  cases i with
  | ret =>
    cases hs : s.stack with
    | nil => exact answers (exec_ret_of_nil hs) (exec_ret_of_nil hs)
    | cons v rest => exact answers (exec_ret_of_cons hs) (exec_ret_of_cons hs)
  | call nnn =>
    cases hs : stackFull s with
    | true => exact answers (exec_call_of_full nnn hs) (exec_call_of_full nnn hs)
    | false => exact answers (exec_call_of_room nnn hs) (exec_call_of_room nnn hs)
  | draw x y k =>
    by_cases hd : k.toNat = 0 ∨ s.index.toNat + k.toNat ≤ 4096
    · exact answers (exec_draw_of_fits x y hd) (exec_draw_of_fits x y hd)
    · exact answers (exec_draw_of_beyond x y hd) (exec_draw_of_beyond x y hd)
  | getKey x =>
    cases hk : lowestHeld s.inp.keys with
    | none => exact answers (exec_getKey_of_none x hk) (exec_getKey_of_none x hk)
    | some k => exact answers (exec_getKey_of_some x hk) (exec_getKey_of_some x hk)
  | setBcd x =>
    rcases le_or_gt (s.index.toNat + 3) 4096 with hd | hd
    · exact answers (exec_setBcd_of_fits x hd) (exec_setBcd_of_fits x hd)
    · exact answers (exec_setBcd_of_beyond x hd) (exec_setBcd_of_beyond x hd)
  | regStore x =>
    rcases le_or_gt (s.index.toNat + (x.val + 1)) 4096 with hd | hd
    · refine answers (exec_regStore_of_fits x hd) ?_
      rw [exec_regStore_of_fits x (s := s.withNumbers n) hd, regValues_withNumbers, ← advanceIndex_withNumbers]
      rfl
    · exact answers (exec_regStore_of_beyond x hd) (exec_regStore_of_beyond x hd)
  | regLoad x =>
    rcases le_or_gt (s.index.toNat + (x.val + 1)) 4096 with hd | hd
    · refine answers (exec_regLoad_of_fits x hd) ?_
      rw [exec_regLoad_of_fits x (s := s.withNumbers n) hd, setRegValues_withNumbers, advanceIndex_withNumbers]
      rfl
    · exact answers (exec_regLoad_of_beyond x hd) (exec_regLoad_of_beyond x hd)
  | addIndex x =>
    exact answers rfl (congrArg _ (writeIndexFlag_withNumbers _ (s.setIndex (s.index + zextByte (s.reg x))) n))
  | clearScreen | jump _ | jumpV0 _ | setIndex _ => exact answers rfl rfl
  | skipEqIm _ _ | skipNeIm _ _ | skipEq _ _ | skipNe _ _ | skipKeyEq _ | skipKeyNe _ => exact answers rfl rfl
  | setIm _ _ | addIm _ _ | set _ _ | or _ _ | and _ _ | xor _ _ | add _ _ | sub _ _ | shr _ _ | subOpp _ _
  | shl _ _ | randAnd _ _ => exact answers rfl rfl
  | getDelay _ | setDelay _ | setSound _ | indexCharacter _ => exact answers rfl rfl

/-- The decay reads the ticks of the sample, not the timer period (60_exceptions.md R196). -/
theorem timerDecay_withNumbers (k : Nat) (s : State) (n : InertNumbers) :
    timerDecay k (s.withNumbers n) = (timerDecay k s).withNumbers n := by
  unfold timerDecay
  split <;> rfl

/-- The next sample is the listed one, or the free one of the counter (log 1, log 2). -/
theorem sampleNext_withNumbers (s : State) (n : InertNumbers) :
    sampleNext (s.withNumbers n) = (sampleNext s).withNumbers n := by
  unfold sampleNext
  cases he : s.env <;> simp only [State.withNumbers, he]

theorem endCycle_withNumbers (t : State) (n : InertNumbers) :
    endCycle (t.withNumbers n) = (endCycle t).withNumbers n :=
  calc endCycle (t.withNumbers n)
      = sampleNext ((timerDecay t.inp.ticks t).withNumbers n) :=
        congrArg sampleNext (timerDecay_withNumbers t.inp.ticks t n)
    _ = (endCycle t).withNumbers n := sampleNext_withNumbers _ n

/-- A cycle does the same whatever the numbers are. -/
theorem step_withNumbers {s t : State} (n : InertNumbers) (h : step s = .next t) :
    step (s.withNumbers n) = .next (t.withNumbers n) := by
  have fetched : ∀ {i u}, fetchDecode s = .ok (i, u) → fetchDecode (s.withNumbers n) = .ok (i, u.withNumbers n) :=
    fun hf => by rw [fetchDecode_withNumbers, hf]; rfl
  cases step_cases h with
  | ended hr e => subst e; exact step_of_ended hr
  | quit hr hq e => subst e; exact step_of_quit hr hq
  | fetchFault f hr hq hf e =>
    subst e
    exact step_of_fetchFault hr hq (by rw [fetchDecode_withNumbers, hf]; rfl)
  | execFault i u f hr hq hf hm he e =>
    rw [step_of_fetched (s := s.withNumbers n) hr hq (fetched hf), exec_withNumbers n he]
    exact finishCycle_of_faulted (congrArg State.run e)
  | completed i u v hr hq hf he hk e =>
    have hv : v.run ≠ .faulted := by rw [hk.run, (KeepsControl.fetchDecode hf).run, hr]; exact nofun
    rw [step_of_fetched (s := s.withNumbers n) hr hq (fetched hf), exec_withNumbers n he, e, ← endCycle_withNumbers]
    exact finishCycle_of_not_faulted hv

/-- Settles O21: a cycle commutes with an exchange of the four numbers. -/
theorem timingAndCosmeticNumbersAreInert : Obligations.TimingAndCosmeticNumbersAreInert := by
  intro s t rate period scale volume h
  exact step_withNumbers ⟨rate, period, scale, volume⟩ h

end Sys2Proof.Machine
end

section
/-!
PROOFS. The state of the machine (spec/10_state.md). First what one cycle does to the run status, the fault record, the call
stack and `pc` (R26 to R28, R37, R38), as invariants of `step`, with what reset leaves (R48) and with `Pop` (R31).
-/

namespace Sys2Proof.Machine

/-! ## The cycle up to the execute step, and a completed one -/

/-- The instruction is executed two bytes past an address both of whose cells exist (10_state.md R25). -/
theorem pc_of_fetchDecode {s u : State} {i : Instr} (h : fetchDecode s = .ok (i, u)) :
    2 ≤ u.pc.toNat ∧ u.pc.toNat ≤ 4096 := by
  obtain ⟨hp, -, rfl⟩ := fetchDecode_ok h
  rw [State.setPc_pc, BitVec.toNat_add, BitVec.toNat_ofNat]
  omega

/-- `pc` less one word is at most 4094 at the execute step: the address a stack fault records (60_exceptions.md R182,
R183). -/
theorem pc_sub_two_toNat_le {w : Word} (h : 2 ≤ w.toNat ∧ w.toNat ≤ 4096) : (w - 2#16).toNat ≤ 4094 := by
  rw [BitVec.toNat_sub, BitVec.toNat_ofNat]
  omega

/-- A running machine is not Faulted. -/
theorem not_faulted_of_running {s : State} (h : s.run = .running) : s.run ≠ .faulted := by
  rw [h]
  exact nofun

/-- A cycle that completes its instruction leaves the machine running. -/
theorem run_of_completed {s u v : State} {i : Instr} (hr : s.run = .running) (hf : fetchDecode s = .ok (i, u))
    (hk : KeepsControl u v) : v.run = .running := by
  rw [hk.run, (KeepsControl.fetchDecode hf).run, hr]

/-- A cycle that completes its instruction keeps the fault record. -/
theorem fault_of_completed {s u v : State} {i : Instr} (hf : fetchDecode s = .ok (i, u)) (hk : KeepsControl u v) :
    v.fault = s.fault :=
  ((KeepsControl.fetchDecode hf).trans hk).fault

/-- Settles O14, by the ways a cycle can go: only the quit request halts, and only the two ways that take a fault end
Faulted. -/
theorem runEndsOnlyByQuitOrFault : Obligations.RunEndsOnlyByQuitOrFault := by
  intro s t h
  cases step_cases h with
  | ended hr e =>
    subst e
    exact ⟨fun h => absurd h hr, fun _ => ⟨rfl, rfl⟩⟩
  | quit hr hq e =>
    have hrun : t.run = .halted := by rw [e, haltOnQuit_run]
    simp [hr, hq, hrun]
  | fetchFault f hr hq _ e =>
    have hrun : t.run = .faulted := by rw [e, takeFault_run]
    have hfault : t.fault = some f := by rw [e, takeFault_fault]
    simp [hr, hq, hrun, hfault]
  | execFault i u f hr hq _ _ _ e =>
    have hrun : t.run = .faulted := by rw [e, takeFault_run]
    have hfault : t.fault = some f := by rw [e, takeFault_fault]
    simp [hr, hq, hrun, hfault]
  | completed i u v hr hq hf _ hk e =>
    have hrun : t.run = .running := by rw [e, endCycle_run, run_of_completed hr hf hk]
    have hfault : t.fault = s.fault := by rw [e, endCycle_fault, fault_of_completed hf hk]
    simp [hr, hq, hrun, hfault]

/-! ## The call stack within its capacity -/

/-- A completed instruction keeps the capacity: Call pushes only where there is room. -/
theorem stackWithinCapacity_exec {i : Instr} {s t : State} (h : exec i s = .next t) (ht : t.run ≠ .faulted)
    (hp : t.params = s.params) (hs : StackWithinCapacity s) : StackWithinCapacity t := by
  unfold StackWithinCapacity State.sp at *
  rw [hp]
  rcases (exec_effects h ht).stack with ⟨e, -⟩ | ⟨_, -, e, hroom⟩ | ⟨-, e⟩
  · rwa [e]
  · rw [e]
    exact withinDepth_push hroom s.pc
  · refine withinDepth_mono hs ?_
    rw [e]
    exact Nat.le_succ _

/-- Settles O24, by the ways a cycle can go. -/
theorem stepKeepsTheStackWithinCapacity : Obligations.StepKeepsTheStackWithinCapacity := by
  intro s t hs h
  cases step_cases h with
  | ended _ e => rwa [e]
  | quit _ _ e => rwa [e]
  | fetchFault f _ _ _ e => rw [e]; exact stackWithinCapacity_takeFault f s
  | execFault i u f _ _ _ _ _ e => rw [e]; exact stackWithinCapacity_takeFault f u
  | completed i u v hr _ hf he hk e =>
    have hu : StackWithinCapacity u := by rwa [(fetchDecode_ok hf).2.2]
    have hv : StackWithinCapacity v :=
      stackWithinCapacity_exec he (not_faulted_of_running (run_of_completed hr hf hk)) hk.params hu
    unfold StackWithinCapacity State.sp
    rwa [e, endCycle_params, endCycle_stack]

/-! ## The fault record -/

/-- A fault of the fetch or the decoder is one the CORE can record (60_exceptions.md R180, R181). -/
theorem faultPossible_of_fetchDecode {s : State} {f : Fault} (h : fetchDecode s = .error f) :
    faultPossible f = true := by
  have hpc := s.pc.isLt
  rcases fetchDecode_error h with ⟨hp, rfl⟩ | ⟨-, ⟨e, he⟩, rfl⟩
  · simp only [faultPossible, Bool.and_eq_true, decide_eq_true_eq]
    split <;> omega
  · rw [decode_error he] at he
    exact decide_eq_true he

/-- So is the fault of an instruction after a fetch (60_exceptions.md R180, R182, R183). -/
theorem faultPossible_of_faultRaised {i : Instr} {s : State} {f : Fault}
    (hpc : 2 ≤ s.pc.toNat ∧ s.pc.toNat ≤ 4096) (h : faultRaised i s = some f) : faultPossible f = true := by
  have hstack : (s.pc - 2#16).toNat ≤ 4094 := pc_sub_two_toNat_le hpc
  have hindex : 4096 ≤ max s.index.toNat 4096 ∧ max s.index.toNat 4096 ≤ 65535 + 15 := by
    have := s.index.isLt
    omega
  cases i <;> simp only [faultRaised, Option.some.injEq, reduceCtorEq] at h <;> subst h
  case ret | call => exact decide_eq_true hstack
  case draw | setBcd | regStore | regLoad =>
    rw [faultPossible, Bool.and_eq_true, decide_eq_true_eq, decide_eq_true_eq]
    exact hindex

/-- The record of a fault just taken matches. -/
theorem faultRecordMatches_takeFault {f : Fault} (s : State) (hf : faultPossible f = true) :
    FaultRecordMatches (takeFault f s) :=
  ⟨⟨fun _ => rfl, fun _ => rfl⟩, hf⟩

/-- Where neither state is Faulted, the record was empty and stays so. -/
theorem FaultRecordMatches.of_not_faulted {s t : State} (h : FaultRecordMatches s) (hs : s.run ≠ .faulted)
    (ht : t.run ≠ .faulted) (hf : t.fault = s.fault) : FaultRecordMatches t := by
  obtain ⟨hiff, -⟩ := h
  have hnone : t.fault = none := by
    rw [hf, ← Option.not_isSome_iff_eq_none]
    exact fun h => hs (hiff.mpr h)
  simp [FaultRecordMatches, hnone, ht]

/-- Settles O25, by the ways a cycle can go: the two that take a fault take a possible one, and the others keep an empty
record or change nothing. -/
theorem stepKeepsTheFaultRecord : Obligations.StepKeepsTheFaultRecord := by
  intro s t hs h
  cases step_cases h with
  | ended _ e => rwa [e]
  | quit hr _ e => exact hs.of_not_faulted (not_faulted_of_running hr) (by simp [e]) (by rw [e, haltOnQuit_fault])
  | fetchFault f _ _ hf e => rw [e]; exact faultRecordMatches_takeFault s (faultPossible_of_fetchDecode hf)
  | execFault i u f _ _ hf hm _ e =>
    rw [e]
    exact faultRecordMatches_takeFault u (faultPossible_of_faultRaised (pc_of_fetchDecode hf) hm)
  | completed i u v hr _ hf _ hk e =>
    have hrun : t.run = .running := by rw [e, endCycle_run, run_of_completed hr hf hk]
    have hfault : t.fault = s.fault := by rw [e, endCycle_fault, fault_of_completed hf hk]
    exact hs.of_not_faulted (not_faulted_of_running hr) (not_faulted_of_running hrun) hfault

/-! ## The range of `pc` -/

/-- A completed instruction after a fetch leaves `pc` at most 0x0FFF + 0x00FF, the reach of JumpV0, and return addresses at
most 4096 (10_state.md R26). -/
theorem pcInRange_exec {i : Instr} {s t : State} (h : exec i s = .next t) (ht : t.run ≠ .faulted)
    (hpc : 2 ≤ s.pc.toNat ∧ s.pc.toNat ≤ 4096) (hs : ∀ v ∈ s.stack, v.toNat ≤ 4096) :
    t.pc.toNat ≤ 0x10FE ∧ ∀ v ∈ t.stack, v.toNat ≤ 4096 := by
  have heff := exec_effects h ht
  constructor
  · rcases heff.pc with e | e | e | hle | rfl
    · rw [e]
      omega
    · rw [e, BitVec.toNat_add, BitVec.toNat_ofNat]
      omega
    · have := pc_sub_two_toNat_le hpc
      rw [e]
      omega
    · exact hle
    · rcases heff.stack with ⟨-, hi⟩ | ⟨_, hi, -⟩ | ⟨-, e⟩
      · exact absurd rfl hi
      · exact nomatch hi
      · have := hs t.pc (by simp [e])
        omega
  · rcases heff.stack with ⟨e, -⟩ | ⟨_, -, e, -⟩ | ⟨-, e⟩
    · rwa [e]
    · rw [e]
      exact List.forall_mem_cons.mpr ⟨hpc.2, hs⟩
    · rw [e] at hs
      exact (List.forall_mem_cons.mp hs).2

/-- Settles O26, by the ways a cycle can go. -/
theorem stepKeepsPcInRange : Obligations.StepKeepsPcInRange := by
  intro s t hs h ht
  cases step_cases h with
  | ended _ e =>
    subst e
    exact hs ht
  | quit hr _ e =>
    rw [e, haltOnQuit_pc, haltOnQuit_stack]
    exact hs (not_faulted_of_running hr)
  | fetchFault f _ _ _ e => exact absurd (by rw [e, takeFault_run]) ht
  | execFault i u f _ _ _ _ _ e => exact absurd (by rw [e, takeFault_run]) ht
  | completed i u v hr _ hf he hk e =>
    have hv : v.run ≠ .faulted := not_faulted_of_running (run_of_completed hr hf hk)
    have hstack : ∀ w ∈ u.stack, w.toNat ≤ 4096 := by
      rw [(fetchDecode_ok hf).2.2, State.setPc_stack]
      exact (hs (not_faulted_of_running hr)).2
    rw [e, endCycle_pc, endCycle_stack]
    exact pcInRange_exec he hv (pc_of_fetchDecode hf) hstack

/-! ## Reset and `Pop` -/

/-- Settles O22: reset memory lists nothing, the stack is empty, no fault is recorded and `pc` is 512. -/
theorem resetMeetsTheInvariants : Obligations.ResetMeetsTheInvariants := by
  intro c p
  refine ⟨Memory.wf_nil p, ?_, ⟨by simp [State.atReset], rfl⟩, ?_, rfl⟩
  · cases hd : p.stackDepth <;> simp [StackWithinCapacity, State.atReset, State.sp, withinDepth, hd]
  · exact fun _ => ⟨show (512#16).toNat ≤ 0x10FE by decide, nofun⟩

/-- Settles O27: the table of R48, read off `State.atReset`. -/
theorem resetLeavesTheTableOfValues : Obligations.ResetLeavesTheTableOfValues := by
  intro c p r row col
  have hreg : (State.atReset c p).reg r = 0#8 := Vector.getElem_replicate ..
  exact ⟨hreg, rfl, rfl, rfl, rfl, rfl, Frame.get_blank row col, Frame.get_blank row col, rfl, rfl, rfl, rfl, rfl⟩

/-- Settles O43, from what Pop answers on either form of the stack. -/
theorem popTakesTheTopOrUnderflows : Obligations.PopTakesTheTopOrUnderflows :=
  fun _ => ⟨fun _ _ h => pop_of_cons h, fun h => ⟨_, pop_of_nil h⟩⟩

end Sys2Proof.Machine
end

section
/-!
PROOFS. What a completed instruction writes beside memory, stack and `pc`, said once for all instructions, and from it the two
statements about who writes what (spec/10_state.md R21 to R23, R27, R32 to R34).
-/

namespace Sys2Proof.Machine

/-! ## Registers through the operations that write several -/

/-- AddIndex's flag write reaches no register but the flag register (42_index_memory.md R142). -/
theorem reg_writeIndexFlag_other (v : Word) (s : State) {r : Reg} (h : r ≠ 15) :
    (writeIndexFlag v s).reg r = s.reg r := by
  unfold writeIndexFlag
  split
  · split
    · rw [State.reg_setFlag, if_neg h]
    · split
      · rw [State.reg_setFlag, if_neg h]
      · rfl
  · rfl

/-- Bytes written into the registers from number 0 on reach none above the last of them. -/
theorem reg_setRegValues_above (s : State) {x r : Reg} {bs : List Byte} (hl : bs.length = x.val + 1) (h : x < r) :
    (setRegValues s 0 bs).reg r = s.reg r := by
  have := x.isLt
  rw [reg_setRegValues s 0 bs (by omega), if_neg]
  rw [Fin.lt_def] at h
  omega

/-- `I` stays after a register transfer, unless under the quirk (42_index_memory.md R145, R146). -/
theorem index_advanceIndex (s : State) (x : Reg) :
    (advanceIndex s x).index = s.index ∨ s.cfg.oldStoreLoadBehavior = true := by
  unfold advanceIndex
  split
  · exact Or.inr ‹_›
  · exact Or.inl rfl

/-! ## What a completed instruction writes -/

/-- A completed instruction `i` from `s` to `t`, seen through the registers, the framebuffer, the timers and `I`: each is
kept, or `i` is one that writes it. (Memory, stack and `pc` are in `Effects`.) A field left out is kept. -/
structure Writes (i : Instr) (s t : State) : Prop where
  /-- A register is kept, or a destination, or the flag register of an instruction with a flag (10_state.md R21, R22). -/
  regs : ∀ r, t.reg r = s.reg r ∨ isDestination i r = true ∨ r = 15 ∧ writesFlag i = true := by
    exact fun _ => Or.inl rfl
  fb : t.fb = s.fb ∨ i = .clearScreen ∨ ∃ x y n, i = .draw x y n := by exact Or.inl rfl
  dt : t.dt = s.dt ∨ ∃ x, i = .setDelay x := by exact Or.inl rfl
  st : t.st = s.st ∨ ∃ x, i = .setSound x := by exact Or.inl rfl
  index : t.index = s.index ∨ (∃ nnn, i = .setIndex nnn) ∨ (∃ x, i = .addIndex x) ∨ (∃ x, i = .indexCharacter x) ∨
      s.cfg.oldStoreLoadBehavior = true ∧ ∃ x, i = .regStore x ∨ i = .regLoad x := by exact Or.inl rfl

/-- An instruction that writes its destination register. -/
theorem Writes.setReg {i : Instr} {x : Reg} (v : Byte) (s : State) (hd : isDestination i x = true) :
    Writes i s (s.setReg x v) where
  regs r := by
    by_cases h : r = x
    · exact Or.inr (Or.inl (h ▸ hd))
    · exact Or.inl (State.reg_setReg_other s v h)

/-- An instruction that writes its destination register and the flag. -/
theorem Writes.resultAndFlag {i : Instr} {x : Reg} (v : Byte) (flag : Bool) (s : State) (hd : isDestination i x = true)
    (hf : writesFlag i = true) : Writes i s (writeResultAndFlag x v flag s) where
  regs r := by
    rw [reg_writeResultAndFlag]
    by_cases h15 : r = 15
    · exact Or.inr (Or.inr ⟨h15, hf⟩)
    · by_cases hx : r = x
      · exact Or.inr (Or.inl (hx ▸ hd))
      · exact Or.inl (by rw [if_neg h15, if_neg hx])

/-- Draw writes the framebuffer and the flag (43_display.md R161). -/
theorem Writes.drawSprite (x y : Reg) (n : BitVec 4) (sprite : List Byte) (s : State) :
    Writes (.draw x y n) s (drawSprite x y sprite s) where
  regs r := by
    by_cases h15 : r = 15
    · exact Or.inr (Or.inr ⟨h15, rfl⟩)
    · exact Or.inl ((State.reg_setFlag _ _ r).trans (if_neg h15))
  fb := Or.inr (Or.inr ⟨x, y, n, rfl⟩)

/-- AddIndex writes `I` and the flag (42_index_memory.md R142). -/
theorem Writes.addIndex (x : Reg) (v : Word) (s : State) :
    Writes (.addIndex x) s (writeIndexFlag v (s.setIndex v)) := by
  have hreg : ∀ r, (writeIndexFlag v (s.setIndex v)).reg r = s.reg r ∨
      isDestination (.addIndex x) r = true ∨ r = 15 ∧ writesFlag (.addIndex x) = true := by
    intro r
    by_cases h15 : r = 15
    · exact Or.inr (Or.inr ⟨h15, rfl⟩)
    · exact Or.inl (reg_writeIndexFlag_other v (s.setIndex v) h15)
  rw [writeIndexFlag_eq]
  exact { regs := hreg, index := Or.inr (Or.inr (Or.inl ⟨x, rfl⟩)) }

/-- RegStore writes `I` under its quirk only (42_index_memory.md R145). -/
theorem Writes.regStore (x : Reg) (m : List Host.Cell) (s : State) :
    Writes (.regStore x) s (advanceIndex (s.setMem m) x) := by
  have hindex := index_advanceIndex (s.setMem m) x
  rw [advanceIndex_eq] at hindex ⊢
  exact { index := hindex.imp_right fun hq => Or.inr (Or.inr (Or.inr ⟨hq, x, Or.inl rfl⟩)) }

/-- RegLoad writes its registers, and `I` under its quirk only (42_index_memory.md R146). -/
theorem Writes.regLoad (x : Reg) {bs : List Byte} (hl : bs.length = x.val + 1) (s : State) :
    Writes (.regLoad x) s (advanceIndex (setRegValues s 0 bs) x) := by
  have hreg : ∀ r, (setRegValues s 0 bs).reg r = s.reg r ∨
      isDestination (.regLoad x) r = true ∨ r = 15 ∧ writesFlag (.regLoad x) = true := by
    intro r
    rcases le_or_gt r x with h | h
    · exact Or.inr (Or.inl (decide_eq_true h))
    · exact Or.inl (reg_setRegValues_above s hl h)
  have hindex := index_advanceIndex (setRegValues s 0 bs) x
  rw [advanceIndex_eq, setRegValues_eq] at hindex ⊢
  exact { regs := hreg, index := hindex.imp_right fun hq => Or.inr (Or.inr (Or.inr ⟨hq, x, Or.inr rfl⟩)) }

/-- What a completed instruction writes: `of` takes its meaning in the case at hand, and a case that takes a fault is not
one of a completed instruction. -/
theorem exec_writes {i : Instr} {s t : State} (h : exec i s = .next t) (ht : t.run ≠ .faulted) : Writes i s t := by
  have of : ∀ {u}, exec i s = .next u → Writes i s u → Writes i s t := by
    intro u he hw
    rwa [Host.Outcome.next.inj (h.symm.trans he)]
  have fault : ∀ {f}, exec i s = .next (takeFault f s) → Writes i s t := by
    intro f he
    exact absurd (congrArg State.run (Host.Outcome.next.inj (h.symm.trans he))) ht
  cases i with
  | ret =>
    cases hs : s.stack with
    | nil => exact fault (exec_ret_of_nil hs)
    | cons v rest => exact of (exec_ret_of_cons hs) {}
  | call nnn =>
    cases hs : stackFull s with
    | true => exact fault (exec_call_of_full nnn hs)
    | false => exact of (exec_call_of_room nnn hs) {}
  | draw x y n =>
    by_cases hd : n.toNat = 0 ∨ s.index.toNat + n.toNat ≤ 4096
    · exact of (exec_draw_of_fits x y hd) (.drawSprite x y n _ s)
    · exact fault (exec_draw_of_beyond x y hd)
  | getKey x =>
    cases hk : lowestHeld s.inp.keys with
    | none => exact of (exec_getKey_of_none x hk) {}
    | some k => exact of (exec_getKey_of_some x hk) (.setReg _ s (decide_eq_true rfl))
  | setBcd x =>
    rcases le_or_gt (s.index.toNat + 3) 4096 with hd | hd
    · exact of (exec_setBcd_of_fits x hd) {}
    · exact fault (exec_setBcd_of_beyond x hd)
  | regStore x =>
    rcases le_or_gt (s.index.toNat + (x.val + 1)) 4096 with hd | hd
    · exact of (exec_regStore_of_fits x hd) (.regStore x _ s)
    · exact fault (exec_regStore_of_beyond x hd)
  | regLoad x =>
    rcases le_or_gt (s.index.toNat + (x.val + 1)) 4096 with hd | hd
    · exact of (exec_regLoad_of_fits x hd) (.regLoad x (by simp) s)
    · exact fault (exec_regLoad_of_beyond x hd)
  | addIndex x => exact of rfl (.addIndex x _ s)
  | setIndex nnn => exact of rfl { index := Or.inr (Or.inl ⟨nnn, rfl⟩) }
  | indexCharacter x => exact of rfl { index := Or.inr (Or.inr (Or.inr (Or.inl ⟨x, rfl⟩))) }
  | clearScreen => exact of rfl { fb := Or.inr (Or.inl rfl) }
  | setDelay x => exact of rfl { dt := Or.inr ⟨x, rfl⟩ }
  | setSound x => exact of rfl { st := Or.inr ⟨x, rfl⟩ }
  | jump _ | jumpV0 _ => exact of rfl {}
  | skipEqIm _ _ | skipNeIm _ _ | skipEq _ _ | skipNe _ _ | skipKeyEq _ | skipKeyNe _ => exact of rfl {}
  | setIm x _ | addIm x _ | set x _ | or x _ | and x _ | xor x _ | randAnd x _ | getDelay x =>
    exact of rfl (.setReg _ s (decide_eq_true rfl))
  | add x _ | sub x _ | shr x _ | subOpp x _ | shl x _ =>
    exact of rfl (.resultAndFlag _ _ s (decide_eq_true rfl) rfl)

/-! ## Who writes what -/

/-- Settles O17, from what a completed instruction writes. -/
theorem onlyListedInstructionsWriteRegisters : Obligations.OnlyListedInstructionsWriteRegisters := by
  intro i s t r h _ ht hne
  exact ((exec_writes h (not_faulted_of_running ht)).regs r).resolve_left hne

/-- An instruction keeps the parameters and the input sample, whether it completes or takes its fault. -/
theorem params_inp_of_exec {i : Instr} {s t : State} (h : exec i s = .next t) :
    t.params = s.params ∧ t.inp = s.inp := by
  rcases exec_cases i s with ⟨u, he, hk⟩ | ⟨f, -, he⟩ <;> cases h.symm.trans he
  · exact ⟨hk.params, hk.inp⟩
  · exact ⟨takeFault_params f s, takeFault_inp f s⟩

/-- Settles O18: the stack and memory from `Effects`, the rest from `Writes`. -/
theorem onlyListedInstructionsWriteOtherState : Obligations.OnlyListedInstructionsWriteOtherState := by
  intro i s t h _ ht
  have heff := exec_effects h (not_faulted_of_running ht)
  have hw := exec_writes h (not_faulted_of_running ht)
  refine ⟨fun hne => ?_, hw.fb.resolve_left, hw.dt.resolve_left, hw.st.resolve_left, hw.index.resolve_left, ?_⟩
  · rcases heff.stack with ⟨e, -⟩ | ⟨nnn, hi, -⟩ | ⟨hi, -⟩
    · exact absurd e hne
    · exact Or.inr ⟨nnn, hi⟩
    · exact Or.inl hi
  · rintro ⟨a, hne⟩
    rcases heff.mem with e | ⟨bs, -, -, hi⟩
    · refine absurd ?_ hne
      rw [State.byteAt, State.byteAt, e, (params_inp_of_exec h).1]
    · exact hi

end Sys2Proof.Machine
end

section
/-!
PROOFS. The inputs of a cycle (spec/10_state.md R40 to R43): an instruction does the same whatever the sample is, up to the
random byte and the keys, which only some instructions read.
-/

namespace Sys2Proof.Machine

/-- The state with another input sample in the cycle about to run. -/
def State.withInp (s : State) (a : Inputs) : State := { s with inp := a }

/-- Register writes of a byte string read no input. -/
theorem setRegValues_withInp (s : State) (i : Nat) (bs : List Byte) (a : Inputs) :
    setRegValues (s.withInp a) i bs = (setRegValues s i bs).withInp a := by
  induction bs generalizing s i with
  | nil => rfl
  | cons b rest ih => exact ih (s.setReg (regOf i) b) (i + 1)

theorem regValues_withInp (s : State) (i k : Nat) (a : Inputs) : regValues (s.withInp a) i k = regValues s i k := by
  induction k generalizing i with
  | zero => rfl
  | succ k ih => exact congrArg (s.reg (regOf i) :: ·) (ih (i + 1))

theorem advanceIndex_withInp (s : State) (x : Reg) (a : Inputs) :
    advanceIndex (s.withInp a) x = (advanceIndex s x).withInp a := by
  rw [advanceIndex_eq, advanceIndex_eq]
  rfl

theorem writeIndexFlag_withInp (v : Word) (s : State) (a : Inputs) :
    writeIndexFlag v (s.withInp a) = (writeIndexFlag v s).withInp a := by
  have hc : (s.withInp a).cfg = s.cfg := rfl
  have hp : (s.withInp a).params = s.params := rfl
  unfold writeIndexFlag
  rw [hc, hp]
  split
  · split
    · rfl
    · split <;> rfl
  · rfl

theorem keyHeld_withInp {s : State} {a : Inputs} (h : a.keys = s.inp.keys) (k : Nat) :
    keyHeld (s.withInp a) k = keyHeld s k :=
  congrArg (BitVec.getLsbD · k) h

/-- Two samples that agree in what an instruction reads of them: the random byte for RandAnd (10_state.md R43), the keys for
the key instructions (R41). -/
structure AgreeFor (i : Instr) (a b : Inputs) : Prop where
  rand : (∃ x nn, i = .randAnd x nn) → a.rand = b.rand
  keys : (∃ x, i = .skipKeyEq x ∨ i = .skipKeyNe x ∨ i = .getKey x) → a.keys = b.keys

/-- An instruction does the same under a sample that agrees in what it reads: `answers` takes its meaning from the two
states, and where it has cases, the same condition on either state selects the case. -/
theorem exec_withInp {i : Instr} {s t : State} {a : Inputs} (ha : AgreeFor i a s.inp) (h : exec i s = .next t) :
    exec i (s.withInp a) = .next (t.withInp a) := by
  have answers : ∀ {u}, exec i s = .next u → exec i (s.withInp a) = .next (u.withInp a) →
      exec i (s.withInp a) = .next (t.withInp a) := by
    intro u hu hn
    rwa [Host.Outcome.next.inj (h.symm.trans hu)]
  cases i with
  | randAnd x nn =>
    have hr : a.rand = s.inp.rand := ha.rand ⟨x, nn, rfl⟩
    exact answers rfl (congrArg (fun b => Host.Outcome.next ((s.withInp a).setReg x (b &&& nn))) hr)
  | skipKeyEq x =>
    have hk : a.keys = s.inp.keys := ha.keys ⟨x, Or.inl rfl⟩
    exact answers rfl (congrArg (fun c => Host.Outcome.next (skipIf c (s.withInp a))) (keyHeld_withInp hk _))
  | skipKeyNe x =>
    have hk : a.keys = s.inp.keys := ha.keys ⟨x, Or.inr (Or.inl rfl)⟩
    exact answers rfl (congrArg (fun c => Host.Outcome.next (skipIf (!c) (s.withInp a))) (keyHeld_withInp hk _))
  | getKey x =>
    have hk : a.keys = s.inp.keys := ha.keys ⟨x, Or.inr (Or.inr rfl)⟩
    cases hl : lowestHeld s.inp.keys with
    | none => exact answers (exec_getKey_of_none x hl) (exec_getKey_of_none x ((congrArg lowestHeld hk).trans hl))
    | some k => exact answers (exec_getKey_of_some x hl) (exec_getKey_of_some x ((congrArg lowestHeld hk).trans hl))
  | ret =>
    cases hs : s.stack with
    | nil => exact answers (exec_ret_of_nil hs) (exec_ret_of_nil hs)
    | cons v rest => exact answers (exec_ret_of_cons hs) (exec_ret_of_cons hs)
  | call nnn =>
    cases hs : stackFull s with
    | true => exact answers (exec_call_of_full nnn hs) (exec_call_of_full nnn hs)
    | false => exact answers (exec_call_of_room nnn hs) (exec_call_of_room nnn hs)
  | draw x y n =>
    by_cases hd : n.toNat = 0 ∨ s.index.toNat + n.toNat ≤ 4096
    · exact answers (exec_draw_of_fits x y hd) (exec_draw_of_fits x y hd)
    · exact answers (exec_draw_of_beyond x y hd) (exec_draw_of_beyond x y hd)
  | setBcd x =>
    rcases le_or_gt (s.index.toNat + 3) 4096 with hd | hd
    · exact answers (exec_setBcd_of_fits x hd) (exec_setBcd_of_fits x hd)
    · exact answers (exec_setBcd_of_beyond x hd) (exec_setBcd_of_beyond x hd)
  | regStore x =>
    rcases le_or_gt (s.index.toNat + (x.val + 1)) 4096 with hd | hd
    · refine answers (exec_regStore_of_fits x hd) ?_
      rw [exec_regStore_of_fits x (s := s.withInp a) hd, regValues_withInp, ← advanceIndex_withInp]
      rfl
    · exact answers (exec_regStore_of_beyond x hd) (exec_regStore_of_beyond x hd)
  | regLoad x =>
    rcases le_or_gt (s.index.toNat + (x.val + 1)) 4096 with hd | hd
    · refine answers (exec_regLoad_of_fits x hd) ?_
      rw [exec_regLoad_of_fits x (s := s.withInp a) hd, setRegValues_withInp, advanceIndex_withInp]
      rfl
    · exact answers (exec_regLoad_of_beyond x hd) (exec_regLoad_of_beyond x hd)
  | addIndex x =>
    exact answers rfl (congrArg _ (writeIndexFlag_withInp _ (s.setIndex (s.index + zextByte (s.reg x))) a))
  | clearScreen | jump _ | jumpV0 _ | setIndex _ => exact answers rfl rfl
  | skipEqIm _ _ | skipNeIm _ _ | skipEq _ _ | skipNe _ _ => exact answers rfl rfl
  | setIm _ _ | addIm _ _ | set _ _ | or _ _ | and _ _ | xor _ _ | add _ _ | sub _ _ | shr _ _ | subOpp _ _
  | shl _ _ => exact answers rfl rfl
  | getDelay _ | setDelay _ | setSound _ | indexCharacter _ => exact answers rfl rfl

/-- Settles O20: the sample with another random byte, or with other keys, agrees with the given one in what any other
instruction reads. -/
theorem inputsAreReadOnlyByTheirInstructions : Obligations.InputsAreReadOnlyByTheirInstructions := by
  intro i s t rand keys h
  rw [(params_inp_of_exec h).2]
  constructor
  · intro hi
    exact exec_withInp (a := { s.inp with rand := rand }) ⟨fun hr => absurd hr hi, fun _ => rfl⟩ h
  · intro hi
    exact exec_withInp (a := { s.inp with keys := keys }) ⟨fun _ => rfl, fun hk => absurd hk hi⟩ h

end Sys2Proof.Machine
end

section
/-!
PROOFS. Addressable Memory (spec/20_memory.md): the byte accesses (R51, R52, R54), the canonical form of memory as an
invariant of `step`, a fetch beyond the last cell (R53), and a stored word as what the next fetch sees (R55, R65).
-/

namespace Sys2Proof.Machine

/-! ## Byte accesses -/

/-- A write of one byte below 4096 keeps the canonical form. -/
theorem memoryCanonical_set {s : State} (hs : MemoryCanonical s) {a : Nat} (v : Byte) (ha : a < 4096) :
    MemoryCanonical (s.setMem (Memory.set s.params s.mem a v)) :=
  Memory.wf_set hs v ha

/-- Stores of a byte string that fits below 4096 keep the canonical form. -/
theorem memoryCanonical_setBytes {s : State} (hs : MemoryCanonical s) {a : Nat} {bs : List Byte}
    (h : a + bs.length ≤ 4096) : MemoryCanonical (s.setMem (Memory.setBytes s.params s.mem a bs)) :=
  Memory.wf_setBytes hs a bs h

/-- A read after a write (20_memory.md R51): the byte written at its address, elsewhere what a read answered before. -/
theorem memRead1_set {s : State} (hs : MemoryCanonical s) {a : Nat} (v : Byte) (ha : a < 4096) (b : Nat) :
    memRead1 (s.setMem (Memory.set s.params s.mem a v)) b = if b = a then .ok v else memRead1 s b := by
  have hget : (s.setMem (Memory.set s.params s.mem a v)).byteAt b = if b = a then v else s.byteAt b :=
    Memory.get_set hs a v b
  rw [memRead1_eq, memRead1_eq, hget]
  by_cases hb : b = a
  · rw [if_pos hb, if_pos hb, if_pos (by omega)]
  · rw [if_neg hb, if_neg hb]

/-- Settles O29, from what a read and a write answer on either side of 4096 and from what a read answers after a write. -/
theorem memoryReadsBackWhatWasWritten : Obligations.MemoryReadsBackWhatWasWritten := by
  intro s a v hs
  rw [memRead1_eq, memWrite1_eq]
  constructor
  · intro ha
    rw [if_pos ha, if_pos ha]
    refine ⟨rfl, _, rfl, memoryCanonical_set hs v ha, ?_, fun b hb => ?_, rfl⟩
    · rw [memRead1_set hs v ha, if_pos rfl]
    · rw [memRead1_set hs v ha, if_neg hb]
  · intro ha
    rw [if_neg (by omega), if_neg (by omega)]
    exact ⟨rfl, rfl⟩

/-! ## The canonical form as an invariant -/

/-- A completed instruction keeps the canonical form: it keeps memory, or stores a byte string that fits. -/
theorem memoryCanonical_exec {i : Instr} {s t : State} (h : exec i s = .next t) (ht : t.run ≠ .faulted)
    (hp : t.params = s.params) (hs : MemoryCanonical s) : MemoryCanonical t := by
  unfold MemoryCanonical
  rw [hp]
  rcases (exec_effects h ht).mem with e | ⟨bs, hfits, e, -⟩
  · rwa [e]
  · rw [e]
    exact memoryCanonical_setBytes hs hfits

/-- Settles O23, by the ways a cycle can go: a fault leaves a canonical memory, a completed instruction keeps one, and all else
that a cycle does leaves memory alone. -/
theorem stepKeepsMemoryCanonical : Obligations.StepKeepsMemoryCanonical := by
  intro s t hs h
  cases step_cases h with
  | ended _ e => rwa [e]
  | quit _ _ e => rwa [e]
  | fetchFault f _ _ _ e => rw [e]; exact memoryCanonical_takeFault f s
  | execFault i u f _ _ _ _ _ e => rw [e]; exact memoryCanonical_takeFault f u
  | completed i u v hr _ hf he hk e =>
    have hu : MemoryCanonical u := by rwa [(fetchDecode_ok hf).2.2]
    have hv : MemoryCanonical v :=
      memoryCanonical_exec he (not_faulted_of_running (run_of_completed hr hf hk)) hk.params hu
    unfold MemoryCanonical
    rwa [e, endCycle_params, endCycle_mem]

/-! ## The fetch -/

/-- A fetch whose second cell does not exist raises the fault of its first address out of range (20_memory.md R53). -/
theorem fetchDecode_of_beyond {s : State} (h : 4096 ≤ s.pc.toNat + 1) :
    fetchDecode s = .error (.outOfBoundsAccess (if 4096 ≤ s.pc.toNat then s.pc.toNat else s.pc.toNat + 1)) := by
  rw [fetchDecode, memRead2_of_ge s h]

/-- Settles O9: at 4095 the second byte of the word is the first one out of range, beyond it the first. -/
theorem fetchOutOfRangeTakesOutOfBounds : Obligations.FetchOutOfRangeTakesOutOfBounds := by
  intro s hr hq hp
  have haddr : (if s.pc.toNat = 4095 then 4096 else s.pc.toNat) =
      if 4096 ≤ s.pc.toNat then s.pc.toNat else s.pc.toNat + 1 := by
    split <;> split <;> omega
  rw [haddr]
  exact ⟨_, step_of_fetchFault hr hq (fetchDecode_of_beyond (by omega)), takeFault_run _ s, takeFault_fault _ s⟩

/-- Both cells of a word exist where `placeWord` stores it. -/
theorem fetchablePc_toNat_succ_lt (pc : Word) : (fetchablePc pc).toNat + 1 < 4096 := by
  unfold fetchablePc
  split
  · assumption
  · decide

/-- The word of a 16-bit opcode-table row is the row's bits. -/
theorem tableWord_toNat (w : Word) : tableWord 16 w.toNat = w := by
  rw [tableWord, Nat.mod_eq_of_lt w.isLt, BitVec.ofNat_toNat, BitVec.setWidth_eq]

/-- The word stored for the next fetch fits where it is stored. -/
theorem fetchablePc_add_bytes_le (pc w : Word) :
    (fetchablePc pc).toNat + [highByte w, lowByte w].length ≤ 4096 :=
  fetchablePc_toNat_succ_lt pc

/-- A placed word keeps the canonical form. -/
theorem memoryCanonical_placeWord {s : State} (hs : MemoryCanonical s) (w : Word) : MemoryCanonical (placeWord s w) :=
  memoryCanonical_setBytes hs (fetchablePc_add_bytes_le s.pc w)

/-- What memory reads as once a word is placed: its high byte, then its low byte, and the old bytes elsewhere (20_memory.md
R55). -/
theorem byteAt_placeWord {s : State} (hs : MemoryCanonical s) (w : Word) (a : Nat) :
    (placeWord s w).byteAt a =
      if (fetchablePc s.pc).toNat ≤ a ∧ a < (fetchablePc s.pc).toNat + 2 then
        [highByte w, lowByte w].getD (a - (fetchablePc s.pc).toNat) 0#8
      else s.byteAt a :=
  byteAt_setBytes hs (fetchablePc_add_bytes_le s.pc w) a

/-- The two bytes at `pc` of the state with a placed word make that word. -/
theorem wordAtPc_placeWord {s : State} (hs : MemoryCanonical s) (w : Word) :
    wordOfBytes ((placeWord s w).byteAt (placeWord s w).pc.toNat)
      ((placeWord s w).byteAt ((placeWord s w).pc.toNat + 1)) = w := by
  have hpc : (placeWord s w).pc = fetchablePc s.pc := rfl
  rw [hpc, byteAt_placeWord hs, byteAt_placeWord hs, if_pos (by omega), if_pos (by omega), Nat.sub_self,
    Nat.add_sub_cancel_left]
  exact wordOfBytes_bytes w

/-- Settles O10: the two bytes at `pc` of the state with the placed word make that word again, and that state is running
without a quit request. -/
theorem placedWordIsTheOneTheNextCycleRuns : Obligations.PlacedWordIsTheOneTheNextCycleRuns := by
  intro s w i hs hd
  rw [State.withFetchWord, tableWord_toNat]
  refine ⟨memoryCanonical_placeWord hs w, step_of_fetched rfl rfl (fetchDecode_of_decode ?_ ?_)⟩
  · exact fetchablePc_toNat_succ_lt s.pc
  · rwa [wordAtPc_placeWord hs]

end Sys2Proof.Machine
end

section
/-!
PROOFS. Instruction encoding (spec/30_encoding.md): decode and encode as inverses (R71 to R77), the table of R74 as the words
that the decoder accepts, no two rows of which overlap, and the rejected word as a fault of the cycle (R78, 60_exceptions.md R181).
-/

namespace Sys2Proof

open Laws

/-! ## The families that the decoder hands on -/

theorem decode_of_fieldOp_8 {w : Word} (h : fieldOp w = 0x8#4) : decode w = decodeArith w := by
  rw [decode, h]; rfl

theorem decode_of_fieldOp_E {w : Word} (h : fieldOp w = 0xE#4) : decode w = decodeKey w := by
  rw [decode, h]; rfl

theorem decode_of_fieldOp_F {w : Word} (h : fieldOp w = 0xF#4) : decode w = decodeMisc w := by
  rw [decode, h]; rfl

/-! ## Decoding what the encoder makes -/

/-- Decoding an instruction's word gives it back. The groups are the parts of the decoder: the fixed words, the families with one
instruction each, family 8, family E, family F. -/
theorem decode_encode (i : Instr) : decode (encode i) = .ok i := by
  cases i with
  | clearScreen | ret => rfl
  | jump | call | skipEqIm | skipNeIm | skipEq | setIm | addIm | skipNe | setIndex | jumpV0 | randAnd | draw =>
    simp [encode, decode]
  | set | or | and | xor | add | sub | shr | subOpp | shl => simp [encode, decode_of_fieldOp_8, decodeArith]
  | skipKeyEq | skipKeyNe => simp [encode, decode_of_fieldOp_E, decodeKey]
  | getDelay | getKey | setDelay | setSound | addIndex | indexCharacter | setBcd | regStore | regLoad =>
    simp [encode, decode_of_fieldOp_F, decodeMisc]

/-- Two bytes that make an instruction's word decode to it, and the bytes after them are left over. -/
theorem decodeBytes_of_decode {hi lo : Byte} {i : Instr} (h : decode (wordOfBytes hi lo) = .ok i) (rest : List Byte) :
    decodeBytes (hi :: lo :: rest) = .ok (i, rest) := by
  rw [decodeBytes, h]

/-- Settles O2, from the word's decoding: the two bytes of a word make the word. -/
theorem decodeOfEncodeIsTheInstruction : Obligations.DecodeOfEncodeIsTheInstruction := by
  intro i _
  refine ⟨decode_encode i, decodeBytes_of_decode ?_⟩
  rw [wordOfBytes_bytes, decode_encode]

/-! ## A word rebuilt from its fields -/

/-- Format `NNN` leaves out no bit of a word. -/
theorem encodeNNN_fields {w : Word} {op : BitVec 4} (hop : (fieldOp w).toNat = op.toNat) :
    encodeNNN op (fieldNNN w) = w :=
  BitVec.eq_of_toNat_eq (by rw [encodeNNN_toNat, ← hop, fieldOp_toNat, fieldNNN_toNat]; omega)

/-- Format `XNN` leaves out no bit of a word. -/
theorem encodeXNN_fields {w : Word} {op : BitVec 4} (hop : (fieldOp w).toNat = op.toNat) :
    encodeXNN op (fieldX w) (fieldNN w) = w :=
  BitVec.eq_of_toNat_eq (by rw [encodeXNN_toNat, ← hop, fieldOp_toNat, fieldX_val, fieldNN_toNat]; omega)

/-- Format `X` leaves out no bit of a word but its sub-opcode. -/
theorem encodeX_fields {w : Word} {op : BitVec 4} {sub : Byte} (hop : (fieldOp w).toNat = op.toNat)
    (hsub : fieldNN w = sub) : encodeX op (fieldX w) sub = w :=
  hsub ▸ encodeXNN_fields hop

/-- Formats `XY` and `XYN` leave out no bit of a word. -/
theorem encodeXYN_fields {w : Word} {op n : BitVec 4} (hop : (fieldOp w).toNat = op.toNat)
    (hn : (fieldN w).toNat = n.toNat) : encodeXYN op (fieldX w) (fieldY w) n = w :=
  BitVec.eq_of_toNat_eq (by
    rw [encodeXYN_toNat, ← hop, ← hn, fieldOp_toNat, fieldX_val, fieldY_val, fieldN_toNat]; omega)

/-! ## Encoding what the decoder reads, family by family -/

theorem encode_of_decodeFixed {w : Word} {i : Instr} (h : decodeFixed w = .ok i) : encode i = w := by
  unfold decodeFixed at h
  split_ifs at h with h1 h2 <;> cases h
  · exact h1.symm
  · exact h2.symm

theorem encode_of_decodeArith {w : Word} {i : Instr} (hop : (fieldOp w).toNat = 0x8) (h : decodeArith w = .ok i) :
    encode i = w := by
  unfold decodeArith at h
  split at h <;> cases h <;> exact encodeXYN_fields hop ‹_›

theorem encode_of_decodeKey {w : Word} {i : Instr} (hop : (fieldOp w).toNat = 0xE) (h : decodeKey w = .ok i) :
    encode i = w := by
  unfold decodeKey at h
  split_ifs at h <;> cases h <;> exact encodeX_fields hop ‹_›

theorem encode_of_decodeMisc {w : Word} {i : Instr} (hop : (fieldOp w).toNat = 0xF) (h : decodeMisc w = .ok i) :
    encode i = w := by
  unfold decodeMisc at h
  split_ifs at h <;> cases h <;> exact encodeX_fields hop ‹_›

/-- Settles O3, by the families of the leading nibble: arm `h_k` of the decoder is family `k - 1`. -/
theorem encodeOfDecodeIsTheWord : Obligations.EncodeOfDecodeIsTheWord := by
  intro w i h
  unfold decode at h
  split at h
  case h_1 => exact encode_of_decodeFixed h
  case h_9 hop => exact encode_of_decodeArith hop h
  case h_15 hop => exact encode_of_decodeKey hop h
  case h_16 hop => exact encode_of_decodeMisc hop h
  case h_6 hop | h_10 hop =>
    split_ifs at h with hn
    cases h
    exact encodeXYN_fields hop (congrArg BitVec.toNat hn)
  case h_2 hop | h_3 hop | h_11 hop | h_12 hop => cases h; exact encodeNNN_fields hop
  case h_4 hop | h_5 hop | h_7 hop | h_8 hop | h_13 hop => cases h; exact encodeXNN_fields hop
  case h_14 hop => cases h; exact encodeXYN_fields hop rfl
  case h_17 => cases h

/-! ## The rows of the table as the words the decoder accepts -/

theorem fieldOp_and (w m : Word) : fieldOp (w &&& m) = fieldOp w &&& fieldOp m := BitVec.extractLsb'_and

theorem fieldN_and (w m : Word) : fieldN (w &&& m) = fieldN w &&& fieldN m := BitVec.extractLsb'_and

theorem fieldNN_and (w m : Word) : fieldNN (w &&& m) = fieldNN w &&& fieldNN m := BitVec.extractLsb'_and

/-- A mask that covers the leading nibble shows it. -/
theorem fieldOp_of_masked {w m b : Word} (h : w &&& m = b) (hm : fieldOp m = BitVec.allOnes 4) :
    fieldOp w = fieldOp b := by
  rw [← h, fieldOp_and, hm, BitVec.and_allOnes]

/-- A mask that covers the trailing nibble shows it. -/
theorem fieldN_of_masked {w m b : Word} (h : w &&& m = b) (hm : fieldN m = BitVec.allOnes 4) :
    fieldN w = fieldN b := by
  rw [← h, fieldN_and, hm, BitVec.and_allOnes]

/-- A mask that covers the low byte shows it. -/
theorem fieldNN_of_masked {w m b : Word} (h : w &&& m = b) (hm : fieldNN m = BitVec.allOnes 8) :
    fieldNN w = fieldNN b := by
  rw [← h, fieldNN_and, hm, BitVec.and_allOnes]

/-- A row with mask 0xFFFF matches one word. -/
theorem eq_of_and_FFFF {w b : Word} (h : w &&& 0xFFFF#16 = b) : w = b :=
  BitVec.and_allOnes.symm.trans h

/-- The decoder accepts a word that matches the row of an instruction: the mask shows the fields by which it chooses. The groups
are the masks, and for each the part of the decoder. -/
theorem exists_decode_of_row {i : Instr} {w m b : Word} (hrow : TableRow.row i = (m, b)) (h : w &&& m = b) :
    ∃ j, decode w = .ok j := by
  cases i with
  | clearScreen | ret =>
    cases hrow
    rw [eq_of_and_FFFF h]
    exact ⟨_, rfl⟩
  | jump | call | skipEqIm | skipNeIm | setIm | addIm | setIndex | jumpV0 | randAnd | draw =>
    cases hrow
    have hop := fieldOp_of_masked h rfl
    rw [decode, hop]
    exact ⟨_, rfl⟩
  | skipEq | skipNe =>
    cases hrow
    have hop := fieldOp_of_masked h rfl
    have hn := fieldN_of_masked h rfl
    rw [decode, hop, hn]
    exact ⟨_, rfl⟩
  | set | or | and | xor | add | sub | shr | subOpp | shl =>
    cases hrow
    have hop : fieldOp w = 0x8#4 := fieldOp_of_masked h rfl
    have hn := fieldN_of_masked h rfl
    rw [decode_of_fieldOp_8 hop, decodeArith, hn]
    exact ⟨_, rfl⟩
  | skipKeyEq | skipKeyNe =>
    cases hrow
    have hop : fieldOp w = 0xE#4 := fieldOp_of_masked h rfl
    have hnn := fieldNN_of_masked h rfl
    rw [decode_of_fieldOp_E hop, decodeKey, hnn]
    exact ⟨_, rfl⟩
  | getDelay | getKey | setDelay | setSound | addIndex | indexCharacter | setBcd | regStore | regLoad =>
    cases hrow
    have hop : fieldOp w = 0xF#4 := fieldOp_of_masked h rfl
    have hnn := fieldNN_of_masked h rfl
    rw [decode_of_fieldOp_F hop, decodeMisc, hnn]
    exact ⟨_, rfl⟩

/-- Each row of the table is the row of the instruction that its own bits decode to. -/
theorem row_decode_bits : ∀ r ∈ opcodeRows, (decode r.bits).toOption.map TableRow.row = some (r.mask, r.bits) := by
  decide

/-- The word the encoder makes matches the instruction's own row, a row of the table. The groups are the formats. -/
theorem tableRow_statement (i : Instr) : TableRow.Statement i := by
  cases i with
  | clearScreen => exact TableRow.clearScreen
  | ret => exact TableRow.ret
  | jump | call | setIndex | jumpV0 => exact ⟨TableRow.match_NNN _ _, rfl⟩
  | skipEqIm | skipNeIm | setIm | addIm | randAnd => exact ⟨TableRow.match_XNN _ _ _, rfl⟩
  | draw => exact ⟨TableRow.match_DXYN _ _ _ _, rfl⟩
  | skipEq | set | or | and | xor | add | sub | shr | subOpp | shl | skipNe =>
    exact ⟨TableRow.match_XY _ _ _ _, rfl⟩
  | skipKeyEq | skipKeyNe | getDelay | getKey | setDelay | setSound | addIndex | indexCharacter | setBcd | regStore
  | regLoad => exact ⟨TableRow.match_X _ _ _, rfl⟩

theorem OpcodeRow.matches_iff (r : OpcodeRow) (w : Word) : r.matches w = true ↔ w &&& r.mask = r.bits :=
  decide_eq_true_iff

/-- A row that matches a word makes the decoder accept it: each row is the row of an instruction. -/
theorem exists_decode_of_matches {r : OpcodeRow} {w : Word} (hr : r ∈ opcodeRows) (h : r.matches w = true) :
    ∃ j, decode w = .ok j := by
  obtain ⟨i, -, hi⟩ := Option.map_eq_some_iff.mp (row_decode_bits r hr)
  exact exists_decode_of_row hi ((OpcodeRow.matches_iff r w).mp h)

/-- The word the encoder makes matches a row of the table. -/
theorem any_matches_encode (i : Instr) : opcodeRows.any (fun r => r.matches (encode i)) = true := by
  obtain ⟨hw, hrow⟩ := tableRow_statement i
  obtain ⟨r, hr, he⟩ := List.any_eq_true.mp hrow
  rw [Bool.and_eq_true, beq_iff_eq, beq_iff_eq] at he
  obtain ⟨hmask, hbits⟩ := he
  refine List.any_eq_true.mpr ⟨r, hr, (OpcodeRow.matches_iff r _).mpr ?_⟩
  rw [hmask, hbits, hw]

/-- A word that no row matches is rejected by name (30_encoding.md R78). -/
theorem decode_of_no_match {w : Word} (h : opcodeRows.any (fun r => r.matches w) = false) :
    decode w = .error (.unknownInstruction w) := by
  cases hd : decode w with
  | error e => rw [decode_error hd]
  | ok i =>
    have hm := any_matches_encode i
    rw [encodeOfDecodeIsTheWord w i hd, h] at hm
    exact absurd hm Bool.false_ne_true

/-- Settles O4, by the row that matches in the one clause, and in the other by the rejection of all other words. -/
theorem decodeAcceptsExactlyTheTable : Obligations.DecodeAcceptsExactlyTheTable := by
  refine fun w => ⟨fun h => ?_, decode_of_no_match⟩
  obtain ⟨r, hr, hm⟩ := List.any_eq_true.mp h
  exact exists_decode_of_matches hr hm

/-- Settles O1, by running the decoder on each of the six words. -/
theorem decodeExamplesOfTheSource : Obligations.DecodeExamplesOfTheSource :=
  ⟨rfl, rfl, rfl, rfl, rfl, rfl⟩

/-! ## No two rows overlap -/

/-- Two rows that differ in a bit which both masks cover. -/
def RowsConflict (r q : OpcodeRow) : Prop := r.bits &&& q.mask ≠ q.bits &&& r.mask

/-- A word that matches both of two rows has the bits of both under their common mask. -/
theorem not_rowsConflict_of_matches {r q : OpcodeRow} {w : Word} (hr : r.matches w = true) (hq : q.matches w = true) :
    ¬ RowsConflict r q := by
  rw [OpcodeRow.matches_iff] at hr hq
  rw [RowsConflict, not_not, ← hr, ← hq, BitVec.and_assoc, BitVec.and_assoc, BitVec.and_comm r.mask]

theorem opcodeRows_pairwise_conflict : opcodeRows.Pairwise RowsConflict := by
  unfold RowsConflict
  decide

/-- Of rows any two of which conflict, a word matches at most one. -/
theorem length_filter_matches_le_one {rows : List OpcodeRow} (h : rows.Pairwise RowsConflict) (w : Word) :
    (rows.filter (fun r => r.matches w)).length ≤ 1 := by
  induction h with
  | nil => exact Nat.zero_le 1
  | @cons r rows hr _ ih =>
    by_cases hm : r.matches w = true
    · have hnone : rows.filter (fun q => q.matches w) = [] :=
        List.filter_eq_nil_iff.mpr fun q hq hqm => not_rowsConflict_of_matches hm hqm (hr q hq)
      rw [List.filter_cons, if_pos hm, hnone, List.length_singleton]
    · rwa [List.filter_cons, if_neg hm]

/-- Settles O5: any two rows of the table conflict. -/
theorem noTwoOpcodeRowsOverlap : Obligations.NoTwoOpcodeRowsOverlap :=
  length_filter_matches_le_one opcodeRows_pairwise_conflict

end Sys2Proof

namespace Sys2Proof.Machine

/-! ## A rejected word in a cycle -/

/-- Fetch and decode when the two cells exist and the word is rejected. -/
theorem fetchDecode_of_reject {s : State} {e : DecodeError} (hp : s.pc.toNat + 1 < 4096)
    (hd : decode (wordOfBytes (s.byteAt s.pc.toNat) (s.byteAt (s.pc.toNat + 1))) = .error e) :
    fetchDecode s = .error (.unknownInstruction (wordOfBytes (s.byteAt s.pc.toNat) (s.byteAt (s.pc.toNat + 1)))) := by
  simp only [fetchDecode, memRead2_of_lt s hp, hd]

/-- Settles O11: the decoder rejects the word, and the cycle takes the fault with it. -/
theorem unassignedWordTakesUnknownInstruction : Obligations.UnassignedWordTakesUnknownInstruction := by
  intro s hr hq hp hw
  exact ⟨_, step_of_fetchFault hr hq (fetchDecode_of_reject hp (decode_of_no_match hw)), takeFault_run _ s,
    takeFault_fault _ s⟩

end Sys2Proof.Machine
end

section
/-!
PROOFS. Control transfer (spec/40_control_flow.md). Every instruction here ends in a write of `pc`, after a write of the call
stack for Call and Return: first the frame of those writes, then each instruction with the facts its operand needs (room on
the stack, the immediate's high nibble, JumpV0's sum, the condition of a skip).
-/

namespace Sys2Proof.Machine

/-! ## Frames of the writes -/

theorem onlyPc_setPc (s : State) (v : Word) : OnlyPc s (s.setPc v) := ⟨rfl, State.byteAt_setPc s v⟩

theorem onlyPcAndStack_setStack_setPc (s : State) (l : List Word) (v : Word) :
    OnlyPcAndStack s ((s.setStack l).setPc v) := ⟨rfl, fun _ => rfl⟩

/-! ## Jump, Call and Return -/

/-- Settles O40, from the one write of `pc` that Jump is. -/
theorem jumpSetsPc : Obligations.JumpSetsPc := fun nnn s =>
  ⟨s.setPc (zext16 nnn), rfl, zext16_toNat nnn, onlyPc_setPc s _⟩

/-- The stack is not full exactly when every bound on it is still above its length (10_state.md R28, R30). -/
theorem stackFull_eq_false_iff (s : State) :
    stackFull s = false ↔ ∀ n, s.params.stackDepth = .bounded n → s.stack.length < n := by
  unfold stackFull
  cases s.params.stackDepth with
  | unbounded => simp
  | bounded m => simp

/-- Settles O41: with room, the push succeeds. -/
theorem callPushesTheReturnAddress : Obligations.CallPushesTheReturnAddress := fun nnn s hroom =>
  ⟨_, exec_call_of_room nnn ((stackFull_eq_false_iff s).2 hroom), rfl, zext16_toNat nnn,
    onlyPcAndStack_setStack_setPc s _ _⟩

/-- Settles O44: on a stack with a top entry, the pop succeeds. -/
theorem returnPopsIntoPc : Obligations.ReturnPopsIntoPc := fun s _ _ hs =>
  ⟨_, exec_ret_of_cons hs, rfl, rfl, onlyPcAndStack_setStack_setPc s _ _⟩

/-! ## JumpV0 -/

theorem immediateReg_val (nnn : BitVec 12) : (immediateReg nnn).val = nnn.toNat / 256 := by
  have := nnn.isLt
  show (nnn.extractLsb' 8 4).toNat = _
  simp only [BitVec.extractLsb'_toNat, Nat.shiftRight_eq_div_pow]
  omega

/-- The sum fits 16 bits, so JumpV0's target is the sum of the numbers (40_control_flow.md R104). -/
theorem jumpV0Target_toNat (s : State) (nnn : BitVec 12) :
    (jumpV0Target s nnn).toNat = nnn.toNat + (s.reg (jumpReg s nnn)).toNat := by
  have := nnn.isLt
  have := (s.reg (jumpReg s nnn)).isLt
  rw [jumpV0Target, BitVec.toNat_add, zext16_toNat, zextByte_toNat]
  omega

theorem jumpReg_of_old {s : State} (h : s.cfg.newJumpBehavior = false) (nnn : BitVec 12) : jumpReg s nnn = 0 := by
  simp [jumpReg, h]

theorem jumpReg_of_new {s : State} (h : s.cfg.newJumpBehavior = true) {nnn : BitVec 12} {x : Reg}
    (hx : x.val = nnn.toNat / 256) : jumpReg s nnn = x := by
  have hreg : immediateReg nnn = x := Fin.ext ((immediateReg_val nnn).trans hx.symm)
  simp [jumpReg, h, hreg]

/-- Settles O46, by the register selected under either setting of the quirk. -/
theorem jumpV0AddsTheSelectedRegister : Obligations.JumpV0AddsTheSelectedRegister := by
  intro nnn s
  have hpc := jumpV0Target_toNat s nnn
  refine ⟨s.setPc (jumpV0Target s nnn), rfl, fun hold => ?_, fun hnew x hx => ?_, onlyPc_setPc s _⟩
  · rwa [jumpReg_of_old hold] at hpc
  · rwa [jumpReg_of_new hnew hx] at hpc

/-! ## Skips -/

/-- An instruction that is a skip on the flag `c` adds one word to `pc` when `P` makes the flag true, and changes nothing when
`Q` makes it false (40_control_flow.md R109). -/
theorem exec_of_skipIf {i : Instr} {s : State} {c : Bool} {P Q : Prop} (h : exec i s = .next (skipIf c s))
    (hP : P → c = true) (hQ : Q → c = false) :
    ∃ t, exec i s = .next t ∧ OnlyPc s t ∧ (P → t.pc = s.pc + 2#16) ∧ (Q → t.pc = s.pc) := by
  refine ⟨_, h, onlyPc_setPc s _, fun p => ?_, fun q => ?_⟩
  · rw [hP p, skipIf_eq, State.setPc_pc, if_pos rfl]
  · rw [hQ q, skipIf_eq, State.setPc_pc, if_neg Bool.false_ne_true]

/-- Settles O47: each of the four is a skip, on `==` or on `!=` of what it compares. -/
theorem registerSkipsTestTheirCondition : Obligations.RegisterSkipsTestTheirCondition := fun _ _ _ _ =>
  ⟨exec_of_skipIf rfl beq_iff_eq.2 beq_eq_false_iff_ne.2, exec_of_skipIf rfl bne_iff_ne.2 bne_eq_false_iff_eq.2,
    exec_of_skipIf rfl beq_iff_eq.2 beq_eq_false_iff_ne.2, exec_of_skipIf rfl bne_iff_ne.2 bne_eq_false_iff_eq.2⟩

end Sys2Proof.Machine
end

section
/-!
PROOFS. ALU (spec/41_alu.md). Seven of the instructions are one register write, five are a result and a flag. For each of
the two updates: what it leaves alone and what its values are as numbers, then the instructions with their own arithmetic.
-/

namespace Sys2Proof.Machine

/-! ## One register write -/

/-- A register write changes that register alone. -/
theorem frame_setReg (s : State) (x : Reg) (v : Byte) :
    SameRegsBut [x] s (s.setReg x v) ∧ OnlyRegs s (s.setReg x v) :=
  ⟨fun _ hr => State.reg_setReg_other s v (List.ne_of_not_mem_cons hr), rfl, State.byteAt_setReg s x v⟩

/-- Settles O30, from the one register write that SetIm is. -/
theorem setImWritesTheImmediate : Obligations.SetImWritesTheImmediate := fun x nn s =>
  ⟨s.setReg x nn, rfl, State.reg_setReg_same s x nn, frame_setReg s x nn⟩

/-- Settles O31: the write of a byte sum, which wraps. -/
theorem addImWrapsWithoutFlag : Obligations.AddImWrapsWithoutFlag := fun x nn s =>
  ⟨s.setReg x (s.reg x + nn), rfl, by rw [State.reg_setReg_same, BitVec.toNat_add], frame_setReg s x _⟩

/-- Settles O32: one register write each, of the copy or of the bitwise operation. -/
theorem moveAndLogicAreBitwise : Obligations.MoveAndLogicAreBitwise := fun x y s =>
  ⟨⟨s.setReg x (s.reg y), rfl, State.reg_setReg_same s x _, frame_setReg s x _⟩,
    ⟨s.setReg x (s.reg x ||| s.reg y), rfl, fun _ => by rw [State.reg_setReg_same, BitVec.getLsbD_or],
      frame_setReg s x _⟩,
    ⟨s.setReg x (s.reg x &&& s.reg y), rfl, fun _ => by rw [State.reg_setReg_same, BitVec.getLsbD_and],
      frame_setReg s x _⟩,
    ⟨s.setReg x (s.reg x ^^^ s.reg y), rfl, fun _ => by rw [State.reg_setReg_same, BitVec.getLsbD_xor],
      frame_setReg s x _⟩⟩

/-- Settles O39: the sample's random byte is masked, whatever it is. -/
theorem randAndMasksTheDraw : Obligations.RandAndMasksTheDraw := fun x nn s =>
  ⟨s.setReg x (s.inp.rand &&& nn), rfl, fun _ => by rw [State.reg_setReg_same, BitVec.getLsbD_and],
    frame_setReg s x _⟩

/-! ## A result and a flag -/

/-- The flag register ends with the flag, whatever the destination (41_alu.md R129). -/
theorem reg_flag_writeResultAndFlag (x : Reg) (v : Byte) (b : Bool) (s : State) :
    (writeResultAndFlag x v b s).reg 15 = if b then 1#8 else 0#8 := by
  rw [reg_writeResultAndFlag, if_pos rfl]

theorem reg_result_writeResultAndFlag {x : Reg} (hx : x ≠ 15) (v : Byte) (b : Bool) (s : State) :
    (writeResultAndFlag x v b s).reg x = v := by
  rw [reg_writeResultAndFlag, if_neg hx, if_pos rfl]

/-- A result and a flag change the destination and the flag register alone. -/
theorem frame_writeResultAndFlag (x : Reg) (v : Byte) (b : Bool) (s : State) :
    SameRegsBut [x, 15] s (writeResultAndFlag x v b s) ∧ OnlyRegs s (writeResultAndFlag x v b s) := by
  refine ⟨fun r hr => ?_, writeResultAndFlag_eq x v b s, fun _ => rfl⟩
  have hflag : r ≠ 15 := List.ne_of_not_mem_cons (List.not_mem_of_not_mem_cons hr)
  rw [reg_writeResultAndFlag, if_neg hflag, if_neg (List.ne_of_not_mem_cons hr)]

/-- With the flag register as destination, it alone changes. -/
theorem frame_writeResultAndFlag_flag (v : Byte) (b : Bool) (s : State) :
    SameRegsBut [15] s (writeResultAndFlag 15 v b s) ∧ OnlyRegs s (writeResultAndFlag 15 v b s) := by
  obtain ⟨hregs, honly⟩ := frame_writeResultAndFlag 15 v b s
  exact ⟨fun r hr => hregs r (List.not_mem_cons_of_ne_of_not_mem (List.ne_of_not_mem_cons hr) hr), honly⟩

/-! ## The flags as numbers (41_alu.md R120, R130, R132) -/

theorem carryOut_iff (a b : Byte) : carryOut a b = true ↔ 255 < a.toNat + b.toNat := decide_eq_true_iff

theorem noBorrow_iff (a b : Byte) : noBorrow a b = true ↔ b.toNat ≤ a.toNat := decide_eq_true_iff

/-- A flag that is bit `k` of a byte, as a number. -/
theorem flagOfBit_toNat (v : Byte) (k : Nat) :
    (if v.getLsbD k then 1#8 else 0#8).toNat = v.toNat / 2 ^ k % 2 := by
  rw [BitVec.getLsbD, Nat.testBit_eq_decide_div_mod_eq]
  by_cases h : v.toNat / 2 ^ k % 2 = 1
  · simp [h]
  · simp only [h, decide_false, Bool.false_eq_true, if_false, BitVec.toNat_ofNat]
    omega

theorem flag_shiftedOutRight_toNat (v : Byte) :
    (if shiftedOutRight v then 1#8 else 0#8).toNat = v.toNat % 2 := by
  rw [shiftedOutRight, flagOfBit_toNat, Nat.pow_zero, Nat.div_one]

theorem flag_shiftedOutLeft_toNat (v : Byte) :
    (if shiftedOutLeft v then 1#8 else 0#8).toNat = v.toNat / 128 := by
  have := v.isLt
  rw [shiftedOutLeft, flagOfBit_toNat]
  omega

/-! ## Add, Sub, SubOpp -/

/-- Settles O33: the byte sum wraps, and `carryOut` tests the sum that does not. -/
theorem addWritesSumAndCarry : Obligations.AddWritesSumAndCarry := by
  intro x y s hx
  refine ⟨writeResultAndFlag x (s.reg x + s.reg y) (carryOut (s.reg x) (s.reg y)) s, rfl, ?_, ?_,
    frame_writeResultAndFlag x _ _ s⟩
  · rw [reg_result_writeResultAndFlag hx, BitVec.toNat_add]
  · simp only [reg_flag_writeResultAndFlag, carryOut_iff]

/-- A difference of bytes, as the spec's number (41_alu.md R120). -/
theorem byteSub_toNat (a b : Byte) : (a - b).toNat = (a.toNat + 256 - b.toNat) % 256 := by
  have := b.isLt
  rw [BitVec.toNat_sub]
  omega

/-- Settles O34: the byte difference wraps, and `noBorrow` tests the operands. -/
theorem subWritesDifferenceAndNoBorrow : Obligations.SubWritesDifferenceAndNoBorrow := by
  intro x y s hx
  refine ⟨writeResultAndFlag x (s.reg x - s.reg y) (noBorrow (s.reg x) (s.reg y)) s, rfl, ?_, ?_,
    frame_writeResultAndFlag x _ _ s⟩
  · rw [reg_result_writeResultAndFlag hx, byteSub_toNat]
  · simp only [reg_flag_writeResultAndFlag, noBorrow_iff]

/-- Settles O35: as for Sub, with the operands exchanged in result and flag. -/
theorem subOppWritesMirroredDifference : Obligations.SubOppWritesMirroredDifference := by
  intro x y s hx
  refine ⟨writeResultAndFlag x (s.reg y - s.reg x) (noBorrow (s.reg y) (s.reg x)) s, rfl, ?_, ?_,
    frame_writeResultAndFlag x _ _ s⟩
  · rw [reg_result_writeResultAndFlag hx, byteSub_toNat]
  · simp only [reg_flag_writeResultAndFlag, noBorrow_iff]

/-! ## Shr, Shl -/

/-- Settles O36: the value the statement selects by the quirk is `shiftSource`. -/
theorem shrShiftsTheSelectedRegister : Obligations.ShrShiftsTheSelectedRegister := by
  intro x y s hx
  refine ⟨writeResultAndFlag x (shiftSource s x y >>> 1) (shiftedOutRight (shiftSource s x y)) s, rfl, ?_, ?_,
    frame_writeResultAndFlag x _ _ s⟩
  · rw [reg_result_writeResultAndFlag hx, BitVec.toNat_ushiftRight, Nat.shiftRight_eq_div_pow]
    rfl
  · rw [reg_flag_writeResultAndFlag]
    exact flag_shiftedOutRight_toNat (shiftSource s x y)

/-- Settles O37: the value the statement selects by the quirk is `shiftSource`. -/
theorem shlShiftsTheSelectedRegister : Obligations.ShlShiftsTheSelectedRegister := by
  intro x y s hx
  refine ⟨writeResultAndFlag x (shiftSource s x y <<< 1) (shiftedOutLeft (shiftSource s x y)) s, rfl, ?_, ?_,
    frame_writeResultAndFlag x _ _ s⟩
  · rw [reg_result_writeResultAndFlag hx, BitVec.toNat_shiftLeft, Nat.shiftLeft_eq]
    rfl
  · rw [reg_flag_writeResultAndFlag]
    exact flag_shiftedOutLeft_toNat (shiftSource s x y)

/-! ## The flag register as destination -/

/-- An instruction that writes a result and the flag `b` with destination 15 leaves the flag there and changes nothing
else (41_alu.md R129). -/
theorem exec_of_flagDestination {i : Instr} {s : State} {v : Byte} {b : Bool}
    (h : exec i s = .next (writeResultAndFlag 15 v b s)) :
    ∃ t, exec i s = .next t ∧ t.reg 15 = (if b then 1#8 else 0#8) ∧ SameRegsBut [15] s t ∧ OnlyRegs s t :=
  ⟨_, h, reg_flag_writeResultAndFlag 15 v b s, frame_writeResultAndFlag_flag v b s⟩

/-- Settles O38: the flag is written last, and it is the flag of each instruction's own operands. -/
theorem flagDestinationHoldsTheFlag : Obligations.FlagDestinationHoldsTheFlag := by
  intro y s
  refine ⟨?add, ?sub, ?subOpp, ?shr, ?shl⟩
  case add => simpa only [carryOut_iff] using exec_of_flagDestination (i := .add 15 y) (s := s) rfl
  case sub => simpa only [noBorrow_iff] using exec_of_flagDestination (i := .sub 15 y) (s := s) rfl
  case subOpp => simpa only [noBorrow_iff] using exec_of_flagDestination (i := .subOpp 15 y) (s := s) rfl
  case shr =>
    obtain ⟨t, ht, hflag, hframe⟩ := exec_of_flagDestination (i := .shr 15 y) (s := s) rfl
    exact ⟨t, ht, (congrArg BitVec.toNat hflag).trans (flag_shiftedOutRight_toNat _), hframe⟩
  case shl =>
    obtain ⟨t, ht, hflag, hframe⟩ := exec_of_flagDestination (i := .shl 15 y) (s := s) rfl
    exact ⟨t, ht, (congrArg BitVec.toNat hflag).trans (flag_shiftedOutLeft_toNat _), hframe⟩

end Sys2Proof.Machine
end

section
/-!
PROOFS. Index register and memory (spec/42_index_memory.md). Three instructions write `I` alone, or `I` and the flag; three
move bytes between memory and the register file. For each shared part (the flag of AddIndex, the advance of `I`, a stored
byte string, a loaded range): what it changes and what it leaves alone, then the instructions.
-/

namespace Sys2Proof.Machine

/-! ## SetIndex and IndexCharacter -/

theorem onlyIndex_setIndex (s : State) (v : Word) : OnlyIndex s (s.setIndex v) := ⟨rfl, State.byteAt_setIndex s v⟩

/-- Settles O48, from the one write of `I` that SetIndex is. -/
theorem setIndexLoadsTheImmediate : Obligations.SetIndexLoadsTheImmediate := fun nnn s =>
  ⟨s.setIndex (zext16 nnn), rfl, zext16_toNat nnn, onlyIndex_setIndex s _⟩

/-- A legal font ends at or below 512, so the address of a glyph does not wrap (20_memory.md R57). -/
theorem glyphAddress_toNat {s : State} (h : s.params.wf = true) (b : Byte) :
    (glyphAddress s b).toNat = s.params.fontBase + 5 * (b.toNat % 16) := by
  have hfont : s.params.fontBase + 80 ≤ 512 := of_decide_eq_true (Bool.and_eq_true_iff.1 h).2
  rw [glyphAddress, lowNibble_eq, BitVec.toNat_ofNat]
  omega

/-- Settles O50, from the one write of `I` that IndexCharacter is. -/
theorem indexCharacterPointsAtTheGlyph : Obligations.IndexCharacterPointsAtTheGlyph := fun x s hp =>
  ⟨s.setIndex (glyphAddress s (s.reg x)), rfl, glyphAddress_toNat hp _, onlyIndex_setIndex s _⟩

/-! ## AddIndex -/

theorem indexBeyond_eq_true {v : Word} (h : 4096 ≤ v.toNat) : indexBeyond v = true := decide_eq_true h

theorem indexBeyond_eq_false {v : Word} (h : v.toNat < 4096) : indexBeyond v = false :=
  decide_eq_false (Nat.not_le.2 h)

/-- The flag register after AddIndex's flag write, by quirk, new `I` and parameter (42_index_memory.md R142). -/
theorem reg_flag_writeIndexFlag (v : Word) (s : State) :
    (writeIndexFlag v s).reg 15 =
      if s.cfg.indexOverflowFlag then
        if indexBeyond v then 1#8 else if s.params.indexOverflowClears then 0#8 else s.reg 15
      else s.reg 15 := by
  unfold writeIndexFlag
  split
  · split
    · exact State.reg_setFlag s true 15
    · split
      · exact State.reg_setFlag s false 15
      · rfl
  · rfl

/-- AddIndex changes `I`, and of the registers the flag register alone. -/
theorem frame_addIndex (v : Word) (s : State) :
    SameRegsBut [15] s (writeIndexFlag v (s.setIndex v)) ∧ OnlyIndexAndRegs s (writeIndexFlag v (s.setIndex v)) := by
  refine ⟨fun r hr => reg_writeIndexFlag_other v (s.setIndex v) (List.ne_of_not_mem_cons hr), ?_⟩
  rw [writeIndexFlag_eq]
  exact ⟨rfl, fun _ => rfl⟩

theorem index_addIndex (v : Word) (s : State) : (writeIndexFlag v (s.setIndex v)).index = v := by
  rw [writeIndexFlag_eq, State.setIndex_index]

/-- Settles O49: the word sum wraps, and the flag is that of the new `I`. -/
theorem addIndexAddsAndFlags : Obligations.AddIndexAddsAndFlags := by
  intro x s
  refine ⟨writeIndexFlag (s.index + zextByte (s.reg x)) (s.setIndex (s.index + zextByte (s.reg x))), rfl, ?sum, ?flag⟩
  case sum => rw [index_addIndex, BitVec.toNat_add, zextByte_toNat]
  rw [index_addIndex, reg_flag_writeIndexFlag]
  refine ⟨fun hq => ?off, fun hq hv => ?beyond, fun hq hv hc => ?clears, fun hq hv hc => ?keeps, frame_addIndex _ s⟩
  case off => simp [hq]
  case beyond => simp [hq, indexBeyond_eq_true hv]
  case clears => simp [hq, hc, indexBeyond_eq_false hv]
  case keeps => simp [hq, hc, indexBeyond_eq_false hv]

/-! ## A stored byte string -/

/-- Byte `k` of a stored string, at its address. -/
theorem byteAt_setBytes_at {s : State} (hm : MemoryCanonical s) {a : Nat} {bs : List Byte} (h : a + bs.length ≤ 4096)
    {k : Nat} (hk : k < bs.length) :
    (s.setMem (Memory.setBytes s.params s.mem a bs)).byteAt (a + k) = bs.getD k 0#8 := by
  rw [byteAt_setBytes hm h, if_pos (by omega), Nat.add_sub_cancel_left]

theorem sameMemoryOutside_setBytes {s : State} (hm : MemoryCanonical s) {a : Nat} {bs : List Byte}
    (h : a + bs.length ≤ 4096) :
    SameMemoryOutside a bs.length s (s.setMem (Memory.setBytes s.params s.mem a bs)) := by
  intro b hb
  rw [byteAt_setBytes hm h, if_neg (by omega)]

/-! ## SetBcd -/

/-- Each digit of a byte fits its cell (42_index_memory.md R144). -/
theorem bcdDigits_toNat (v : Byte) :
    ((bcdDigits v).getD 0 0#8).toNat = v.toNat / 100 ∧ ((bcdDigits v).getD 1 0#8).toNat = v.toNat / 10 % 10 ∧
      ((bcdDigits v).getD 2 0#8).toNat = v.toNat % 10 := by
  have hv := v.isLt
  simp only [bcdDigits, List.getD_cons_zero, List.getD_cons_succ, BitVec.toNat_ofNat]
  omega

/-- Settles O51: the three digits are stored as a byte string. -/
theorem setBcdStoresThreeDigits : Obligations.SetBcdStoresThreeDigits := by
  intro x s hm hfits
  have hlen : s.index.toNat + (bcdDigits (s.reg x)).length ≤ 4096 := hfits
  obtain ⟨hundreds, tens, ones⟩ := bcdDigits_toNat (s.reg x)
  have stored := fun k (hk : k < 3) => congrArg BitVec.toNat (byteAt_setBytes_at hm hlen hk)
  exact ⟨_, exec_setBcd_of_fits x hfits, (stored 0 (by decide)).trans hundreds, (stored 1 (by decide)).trans tens,
    (stored 2 (by decide)).trans ones, sameMemoryOutside_setBytes hm hlen, rfl⟩

/-! ## The advance of `I` after a register transfer

From `s`, in a state `t` whose registers or memory are already written and whose `I` is still that of `s`. -/

theorem index_advanceIndex_of_new {s t : State} (hcfg : t.cfg = s.cfg) (hindex : t.index = s.index)
    (h : s.cfg.oldStoreLoadBehavior = false) (x : Reg) : (advanceIndex t x).index = s.index := by
  simp [advanceIndex_eq, hcfg, hindex, h]

/-- `I` after a transfer that fits below 4096 does not wrap. -/
theorem index_advanceIndex_of_old {s t : State} (hcfg : t.cfg = s.cfg) (hindex : t.index = s.index)
    (h : s.cfg.oldStoreLoadBehavior = true) {x : Reg} (hfits : s.index.toNat + x.val < 4096) :
    (advanceIndex t x).index.toNat = s.index.toNat + x.val + 1 := by
  rw [advanceIndex_eq, State.setIndex_index, hcfg, hindex, if_pos h, BitVec.toNat_add, BitVec.toNat_ofNat]
  omega

theorem byteAt_advanceIndex (s : State) (x : Reg) (a : Nat) : (advanceIndex s x).byteAt a = s.byteAt a := by
  rw [advanceIndex_eq, State.byteAt_setIndex]

theorem reg_advanceIndex (s : State) (x r : Reg) : (advanceIndex s x).reg r = s.reg r := by
  rw [advanceIndex_eq, State.reg_setIndex]

/-! ## RegStore -/

/-- Settles O52: the registers are stored as a byte string, then `I` advances. -/
theorem regStoreStoresTheRange : Obligations.RegStoreStoresTheRange := by
  intro x s hm hfits
  have hcount := regValues_length s 0 (x.val + 1)
  have hlen : s.index.toNat + (regValues s 0 (x.val + 1)).length ≤ 4096 := by omega
  refine ⟨_, exec_regStore_of_fits x hfits, fun r hr => ?stored, fun a ha => ?outside,
    fun hq => index_advanceIndex_of_new (State.setMem_cfg s _) (State.setMem_index s _) hq x,
    fun hq => index_advanceIndex_of_old (State.setMem_cfg s _) (State.setMem_index s _) hq hfits, ?frame⟩
  case stored =>
    have hlt : r.val < x.val + 1 := Nat.lt_succ_of_le hr
    rw [byteAt_advanceIndex, byteAt_setBytes_at hm hlen (by omega), regValues_getD s 0 _ _ hlt, Nat.zero_add,
      regOf_reg]
  case outside =>
    rw [byteAt_advanceIndex]
    exact sameMemoryOutside_setBytes hm hlen a (by omega)
  case frame =>
    rw [advanceIndex_eq]
    rfl

/-! ## RegLoad -/

/-- A range of values loaded into registers 0 to `x`: register `r` of them holds value `r`. -/
theorem reg_setRegValues_range (s : State) (f : Nat → Byte) {x r : Reg} (h : r ≤ x) :
    (setRegValues s 0 ((List.range (x.val + 1)).map f)).reg r = f r.val := by
  have hlt : r.val < x.val + 1 := Nat.lt_succ_of_le h
  rw [reg_setRegValues _ _ _ (by simp), if_pos (by simpa using hlt)]
  simp [hlt]

theorem index_setRegValues (s : State) (i : Nat) (bs : List Byte) : (setRegValues s i bs).index = s.index := by
  rw [setRegValues_eq]

/-- Registers written and `I` advanced: nothing else changes. -/
theorem onlyIndexAndRegs_regLoad (s : State) (bs : List Byte) (x : Reg) :
    OnlyIndexAndRegs s (advanceIndex (setRegValues s 0 bs) x) := by
  rw [advanceIndex_eq, setRegValues_eq]
  exact ⟨rfl, fun _ => rfl⟩

/-- Settles O53: the bytes are loaded as a range, then `I` advances. -/
theorem regLoadLoadsTheRange : Obligations.RegLoadLoadsTheRange := by
  intro x s hfits
  refine ⟨_, exec_regLoad_of_fits x hfits, fun r hr => ?loaded, fun r hr => ?kept,
    fun hq => index_advanceIndex_of_new (KeepsControl.setRegValues s 0 _).cfg (index_setRegValues s 0 _) hq x,
    fun hq => index_advanceIndex_of_old (KeepsControl.setRegValues s 0 _).cfg (index_setRegValues s 0 _) hq hfits,
    onlyIndexAndRegs_regLoad s _ x⟩
  case loaded => rw [reg_advanceIndex, reg_setRegValues_range s _ hr]
  case kept => rw [reg_advanceIndex, reg_setRegValues_above s (by simp) hr]

end Sys2Proof.Machine
end

section
/-!
PROOFS. Display (spec/43_display.md). ClearScreen is one write of the framebuffer. Draw is the drawing algorithm on the bytes
at `I`: its pixels and its collision flag are those of `spriteBitAt`, from which a second Draw is the inverse of the first.
-/

namespace Sys2Proof.Machine

/-! ## ClearScreen -/

/-- Settles O55, from the one write of the framebuffer that ClearScreen is. -/
theorem clearScreenClearsEveryPixel : Obligations.ClearScreenClearsEveryPixel := fun s =>
  ⟨s.setFb Frame.blank, rfl, Frame.get_blank, rfl, State.byteAt_setFb s Frame.blank⟩

/-! ## Draw: the sprite read at `I` -/

/-- The `N` bytes a Draw reads from `I` on (43_display.md R161). -/
def spriteBytes (s : State) (n : BitVec 4) : List Byte :=
  (List.range n.toNat).map fun i => s.byteAt (s.index.toNat + i)

theorem exec_draw_spriteBytes (x y : Reg) {n : BitVec 4} {s : State} (h : n = 0#4 ∨ s.index.toNat + n.toNat ≤ 4096) :
    exec (.draw x y n) s = .next (drawSprite x y (spriteBytes s n) s) :=
  exec_draw_of_fits x y (h.imp_left (congrArg BitVec.toNat))

theorem spriteBytes_length (s : State) (n : BitVec 4) : (spriteBytes s n).length = n.toNat := by
  rw [spriteBytes, List.length_map, List.length_range]

theorem spriteBytes_getD (s : State) {n : BitVec 4} {i : Nat} (h : i < n.toNat) :
    (spriteBytes s n).getD i 0#8 = s.byteAt (s.index.toNat + i) := by
  simp [spriteBytes, h]

/-- The sprite that the drawing algorithm is given has its 1 bits where `spriteBitAt` says. -/
theorem spriteBit_spriteBytes (s : State) (x y : Reg) (n : BitVec 4) (r c : Nat) :
    spriteBit (originColumn s x) (originRow s y) (spriteBytes s n) r c = spriteBitAt s x y n r c := by
  rw [spriteBit, rowBit, spriteBitAt, spriteBytes_length, originColumn, originRow, Bool.and_assoc]
  by_cases hrow : (s.reg y).toNat % 32 ≤ r ∧ r < (s.reg y).toNat % 32 + n.toNat
  · rw [spriteBytes_getD s (by omega)]
  · simp only [hrow, decide_false, Bool.false_and]

/-! ## Draw: pixels, collision and frame -/

theorem get_drawSprite (s : State) (x y : Reg) (n : BitVec 4) {r c : Nat} (hr : r < 32) (hc : c < 64) :
    (drawSprite x y (spriteBytes s n) s).fb.get r c = (s.fb.get r c ^^ spriteBitAt s x y n r c) := by
  rw [← spriteBit_spriteBytes]
  exact get_drawRows _ _ _ (s.fb, false) hr hc

/-- A 1 bit of the sprite falls on a pixel that is set. -/
def DrawCollides (s : State) (x y : Reg) (n : BitVec 4) : Prop :=
  ∃ r c, r < 32 ∧ c < 64 ∧ spriteBitAt s x y n r c = true ∧ s.fb.get r c = true

/-- The flag that the drawing algorithm ends with (43_display.md R162 (e)). -/
theorem hit_drawRows_spriteBytes (s : State) (x y : Reg) (n : BitVec 4) :
    (drawRows (originColumn s x) (originRow s y) (spriteBytes s n) (s.fb, false)).2 = true ↔ DrawCollides s x y n := by
  simp only [hit_drawRows, spriteBit_spriteBytes, Bool.false_eq_true, false_or, DrawCollides]
  constructor
  · rintro ⟨r, c, hbit, hset⟩
    obtain ⟨hr, hc⟩ : r < 32 ∧ c < 64 := by
      by_contra hoff
      exact absurd hset (by simp [Frame.get_off_grid s.fb hoff])
    exact ⟨r, c, hr, hc, hbit, hset⟩
  · rintro ⟨r, c, -, -, hbit, hset⟩
    exact ⟨r, c, hbit, hset⟩

theorem reg_flag_drawSprite (s : State) (x y : Reg) (sprite : List Byte) :
    (drawSprite x y sprite s).reg 15 =
      if (drawRows (originColumn s x) (originRow s y) sprite (s.fb, false)).2 then 1#8 else 0#8 :=
  State.reg_setFlag _ _ 15

theorem reg_flag_drawSprite_of_collides {s : State} {x y : Reg} {n : BitVec 4} (h : DrawCollides s x y n) :
    (drawSprite x y (spriteBytes s n) s).reg 15 = 1#8 := by
  rw [reg_flag_drawSprite, if_pos ((hit_drawRows_spriteBytes s x y n).2 h)]

theorem reg_flag_drawSprite_of_not_collides {s : State} {x y : Reg} {n : BitVec 4} (h : ¬ DrawCollides s x y n) :
    (drawSprite x y (spriteBytes s n) s).reg 15 = 0#8 := by
  rw [reg_flag_drawSprite, if_neg (mt (hit_drawRows_spriteBytes s x y n).1 h)]

/-- Draw changes the flag register, the two frames and the present events alone. -/
theorem frame_drawSprite (x y : Reg) (sprite : List Byte) (s : State) :
    SameRegsBut [15] s (drawSprite x y sprite s) ∧ OnlyDrawn s (drawSprite x y sprite s) :=
  ⟨fun r hr => (State.reg_setFlag _ _ r).trans (if_neg (List.ne_of_not_mem_cons hr)), rfl, fun _ => rfl⟩

/-- Settles O56: the pixels and the flag of the drawing algorithm on the bytes at `I`, then one present. -/
theorem drawTogglesTheSprite : Obligations.DrawTogglesTheSprite := fun x y n s h =>
  ⟨_, exec_draw_spriteBytes x y h, fun _ _ => get_drawSprite s x y n, reg_flag_drawSprite_of_collides,
    reg_flag_drawSprite_of_not_collides, rfl, rfl, frame_drawSprite x y _ s⟩

/-! ## Draw twice -/

/-- A pixel toggled twice by the same sprite bit is as it was (43_display.md R162 (h)). -/
theorem fb_drawSprite_twice (s : State) (x y : Reg) (n : BitVec 4) {s' : State}
    (hs' : s' = s.setFb (drawSprite x y (spriteBytes s n) s).fb) :
    (drawSprite x y (spriteBytes s' n) s').fb = s.fb := by
  refine Frame.eq_of_get_eq fun r c hr hc => ?_
  have hbit : spriteBitAt s' x y n r c = spriteBitAt s x y n r c := by rw [hs']; rfl
  rw [get_drawSprite s' x y n hr hc, hbit, hs', State.setFb_fb, get_drawSprite s x y n hr hc, Bool.xor_assoc,
    Bool.xor_self, Bool.xor_false]

/-- On a blank frame the sprite lights its own pixels, so that it collides with what it left (43_display.md R162 (i)). -/
theorem drawCollides_of_drawn_on_blank {s : State} {x y : Reg} {n : BitVec 4} (hblank : s.fb = Frame.blank)
    (hlit : (drawSprite x y (spriteBytes s n) s).fb ≠ Frame.blank) :
    DrawCollides (s.setFb (drawSprite x y (spriteBytes s n) s).fb) x y n := by
  by_contra hnone
  refine hlit (Frame.eq_of_get_eq fun r c hr hc => ?_)
  have hpixel := get_drawSprite s x y n hr hc
  rw [hblank, Frame.get_blank, Bool.false_xor] at hpixel
  rw [Frame.get_blank, Bool.eq_false_iff]
  exact fun hset => hnone ⟨r, c, hr, hc, hpixel.symm.trans hset, hset⟩

/-- Settles O57: the second Draw toggles the same pixels back, and over a blank frame it meets those the first one lit. -/
theorem drawTwiceRestoresTheFrame : Obligations.DrawTwiceRestoresTheFrame := by
  intro x y n s t h ht
  rw [exec_draw_spriteBytes x y h] at ht
  obtain rfl := Host.Outcome.next.inj ht
  exact ⟨_, exec_draw_spriteBytes x y h, fb_drawSprite_twice s x y n rfl, fun hblank hlit =>
    reg_flag_drawSprite_of_collides (drawCollides_of_drawn_on_blank hblank hlit)⟩

end Sys2Proof.Machine
end

section
/-!
PROOFS. Keypad and timers (spec/44_keys_timers.md). The key skips are skips on a key of the sample, GetKey is a search for the
lowest held key, and the timer instructions are one write each.
-/

namespace Sys2Proof.Machine

/-! ## The key skips -/

/-- The key a skip tests is the one the register's value selects modulo 16 (44_keys_timers.md R176). -/
theorem keyHeld_lowNibble (s : State) (b : Byte) : keyHeld s (lowNibble b) = s.inp.keys.getLsbD (b.toNat % 16) := by
  rw [keyHeld, lowNibble_eq]

/-- Settles O58: each of the two is a skip, on the selected key or on its negation. -/
theorem keySkipsTestTheSelectedKey : Obligations.KeySkipsTestTheSelectedKey := by
  intro x s
  rw [← keyHeld_lowNibble]
  exact ⟨exec_of_skipIf rfl id id, exec_of_skipIf rfl (Bool.not_eq_true' _).mpr (Bool.not_eq_false' _).mpr⟩

/-! ## GetKey -/

/-- The search finds the held key that has no held key below it, and no other (44_keys_timers.md R172). -/
theorem lowestHeld_eq_some_iff (keys : BitVec 16) (k : Nat) :
    lowestHeld keys = some k ↔ keys.getLsbD k = true ∧ ∀ j, j < k → keys.getLsbD j = false := by
  constructor
  · intro h
    obtain ⟨-, -, held, least⟩ := lowestHeldFrom_some h
    exact ⟨held, fun j => least j (Nat.zero_le j)⟩
  · rintro ⟨held, least⟩
    cases h : lowestHeld keys with
    | none =>
      rw [(lowestHeld_none_iff keys).1 h, BitVec.getLsbD_zero] at held
      exact absurd held Bool.false_ne_true
    | some m =>
      obtain ⟨-, -, heldFound, leastFound⟩ := lowestHeldFrom_some h
      have hle : k ≤ m := not_lt.1 fun hlt => Bool.eq_false_iff.1 (least m hlt) heldFound
      have hge : m ≤ k := not_lt.1 fun hlt => Bool.eq_false_iff.1 (leastFound k (Nat.zero_le k) hlt) held
      rw [le_antisymm hge hle]

/-- A held key is one of 16, so that its number fits a register. -/
theorem toNat_ofNat_of_held {keys : BitVec 16} {k : Nat} (h : keys.getLsbD k = true) : (BitVec.ofNat 8 k).toNat = k := by
  have := BitVec.lt_of_getLsbD h
  rw [BitVec.toNat_ofNat]
  omega

/-- Settles O59: with no key the search fails, and the lowest held key is the one it finds. -/
theorem getKeyWaitsOrTakesTheLowestKey : Obligations.GetKeyWaitsOrTakesTheLowestKey := by
  refine fun x s => ⟨fun hnone => ?wait, fun k held least => ?take⟩
  case wait => exact ⟨_, exec_getKey_of_none x ((lowestHeld_none_iff _).2 hnone), rfl, onlyPc_setPc s _⟩
  case take =>
    exact ⟨_, exec_getKey_of_some x ((lowestHeld_eq_some_iff _ k).2 ⟨held, least⟩),
      by rw [State.reg_setReg_same, toNat_ofNat_of_held held], frame_setReg s x _⟩

/-! ## The timers -/

/-- The tone of a running machine is its sound timer's (10_state.md R46). -/
theorem tone_eq_true_iff_of_running {s : State} (h : s.run = .running) : s.tone = true ↔ s.st ≠ 0#8 := by
  simp [State.tone, h]

/-- Settles O60: one write each, of register `x` or of a timer; the tone follows the new `ST`. -/
theorem timerInstructionsMoveTheTimers : Obligations.TimerInstructionsMoveTheTimers := fun x s =>
  ⟨⟨s.setReg x s.dt, rfl, State.reg_setReg_same s x _, frame_setReg s x _⟩,
    ⟨s.setDt (s.reg x), rfl, rfl, rfl, State.byteAt_setDt s _⟩,
    ⟨s.setSt (s.reg x), rfl, rfl, ⟨rfl, State.byteAt_setSt s _⟩,
      tone_eq_true_iff_of_running (s := s.setSt (s.reg x))⟩⟩

end Sys2Proof.Machine
end

section
/-!
PROOFS. Exceptions and the end of a cycle (spec/60_exceptions.md). What an instruction answers, what follows it in its cycle,
and which fault each instruction that may raise one takes.
-/

namespace Sys2Proof.Machine

/-! ## An instruction completes or takes a fault of its own kind (R189) -/

/-- The answer of an instruction, seen from the state it answers. -/
theorem completed_or_faulted_of_exec {i : Instr} {s t : State} (h : exec i s = .next t) :
    KeepsControl s t ∨ ∃ f, faultRaised i s = some f ∧ t = takeFault f s := by
  rcases exec_cases i s with ⟨v, he, hk⟩ | ⟨f, hf, he⟩
  · cases h.symm.trans he
    exact Or.inl hk
  · cases h.symm.trans he
    exact Or.inr ⟨f, hf, rfl⟩

/-- No instruction stops or is refused: a fault is taken as a next state (R185). -/
theorem exists_exec_eq_next (i : Instr) (s : State) : ∃ t, exec i s = .next t := by
  rcases exec_cases i s with ⟨t, he, -⟩ | ⟨f, -, he⟩
  · exact ⟨t, he⟩
  · exact ⟨_, he⟩

theorem tookFault_takeFault (f : Fault) (s : State) : TookFault f (takeFault f s) := ⟨takeFault_run f s, takeFault_fault f s⟩

/-- Settles O16, by the two ways an instruction can go: a completed one keeps the run status, and the fault of the other is
one it may raise. -/
theorem eachInstructionRaisesOnlyItsFault : Obligations.EachInstructionRaisesOnlyItsFault := by
  intro i s hr
  rcases exec_cases i s with ⟨t, he, hk⟩ | ⟨f, hf, he⟩
  · exact ⟨t, he, Or.inl (hk.run.trans hr)⟩
  · exact ⟨_, he, Or.inr ⟨f, tookFault_takeFault f s, mayRaise_of_faultRaised hf⟩⟩

/-- An instruction that leaves a running machine Faulted has recorded a fault it may raise. -/
theorem mayRaise_of_exec_faulted {i : Instr} {s t : State} (hs : s.run ≠ .faulted) (h : exec i s = .next t)
    (ht : t.run = .faulted) : ∃ f, t.fault = some f ∧ mayRaise i f = true := by
  rcases completed_or_faulted_of_exec h with hk | ⟨f, hf, rfl⟩
  · exact absurd (hk.run.symm.trans ht) hs
  · exact ⟨f, takeFault_fault f s, mayRaise_of_faultRaised hf⟩

/-! ## What follows the instruction in its cycle (R185, R195) -/

/-- Settles O8: nothing is left of the cycle, and the instruction has recorded a fault of its own. -/
theorem faultEndsTheCycle : Obligations.FaultEndsTheCycle := by
  intro s t i hr hq hp hd he ht
  have hstep : step s = .next t := by
    rw [step_of_fetched hr hq (fetchDecode_of_decode hp hd), he, finishCycle_of_faulted ht]
  have hfetched : (s.setPc (s.pc + 2#16)).run ≠ .faulted := not_faulted_of_running hr
  exact ⟨hstep, mayRaise_of_exec_faulted hfetched he ht⟩

@[simp] theorem endCycle_dt (t : State) : (endCycle t).dt = decayed t.dt t.inp.ticks := by rw [endCycle_eq]
@[simp] theorem endCycle_st (t : State) : (endCycle t).st = decayed t.st t.inp.ticks := by rw [endCycle_eq]

/-- With a tick the pair of frames is presented once, and the previous frame becomes the frame (10_state.md R45). -/
theorem endCycle_presents {t : State} (h : 0 < t.inp.ticks) :
    (endCycle t).presented = (t.fb, t.fbPrev) :: t.presented ∧ (endCycle t).fbPrev = t.fb := by
  rw [endCycle_eq]
  exact ⟨if_pos h, if_pos h⟩

/-- Without a tick nothing is presented. -/
theorem endCycle_presents_nothing {t : State} (h : t.inp.ticks = 0) :
    (endCycle t).presented = t.presented ∧ (endCycle t).fbPrev = t.fbPrev := by
  rw [endCycle_eq]
  exact ⟨if_neg (by omega), if_neg (by omega)⟩

theorem timerDecay_env (k : Nat) (t : State) : (timerDecay k t).env = t.env := by
  unfold timerDecay
  split <;> rfl

/-- The next listed sample comes in (10_state.md R40). -/
theorem endCycle_sample {t : State} {a : Inputs} {rest : List Inputs} (h : t.env = a :: rest) :
    (endCycle t).inp = a ∧ (endCycle t).env = rest := by
  have hd : (timerDecay t.inp.ticks t).env = a :: rest := (timerDecay_env _ t).trans h
  simp only [endCycle, sampleNext, hd, and_self]

/-- The frame of the end of a cycle. -/
theorem endCycle_frame (t : State) :
    endCycle t =
      { t with
        dt := (endCycle t).dt, st := (endCycle t).st, fbPrev := (endCycle t).fbPrev,
        presented := (endCycle t).presented, inp := (endCycle t).inp, env := (endCycle t).env,
        draws := (endCycle t).draws } := by
  conv_lhs => rw [endCycle_eq]
  rw [endCycle_dt, endCycle_st]
  congr 1 <;> rw [endCycle_eq]

/-- Settles O7: a completed instruction keeps the sample, so that the end of its cycle decays by this cycle's ticks and takes
in the sample listed first. -/
theorem completedCycleDecaysTheTimers : Obligations.CompletedCycleDecaysTheTimers := by
  intro s t i hr hq hp hd he ht
  have hk : KeepsControl (s.setPc (s.pc + 2#16)) t := by
    rcases completed_or_faulted_of_exec he with hk | ⟨f, -, rfl⟩
    · exact hk
    · exact absurd (takeFault_run f _) ht
  have hstep : step s = .next (endCycle t) := by
    rw [step_of_fetched hr hq (fetchDecode_of_decode hp hd), he, finishCycle_of_not_faulted ht]
  have hinp : t.inp = s.inp := hk.inp
  have henv : t.env = s.env := hk.env
  rw [← hinp, ← henv]
  exact ⟨endCycle t, hstep, by rw [endCycle_dt, decayed_toNat], by rw [endCycle_st, decayed_toNat], endCycle_presents,
    endCycle_presents_nothing, fun _ _ => endCycle_sample, endCycle_frame t⟩

/-! ## Every cycle answers (R186, R187) -/

/-- What follows an instruction's next state is a next state. -/
theorem exists_finishCycle_eq_next (t : State) : ∃ u, finishCycle (.next t) = .next u := by
  by_cases ht : t.run = .faulted
  · exact ⟨t, finishCycle_of_faulted ht⟩
  · exact ⟨endCycle t, finishCycle_of_not_faulted ht⟩

/-- Settles O15, by the ways a cycle can go: an ended run, a quit request, a fault of the fetch or the decoder, and an
executed instruction, whose answer is a next state. -/
theorem stepAlwaysAnswersANextState : Obligations.StepAlwaysAnswersANextState := by
  intro s
  by_cases hr : s.run = .running
  case neg => exact ⟨s, step_of_ended hr⟩
  case pos =>
    cases hq : s.inp.quit with
    | true => exact ⟨haltOnQuit s, step_of_quit hr hq⟩
    | false =>
      cases hf : fetchDecode s with
      | error f => exact ⟨takeFault f s, step_of_fetchFault hr hq hf⟩
      | ok iu =>
        obtain ⟨i, u⟩ := iu
        obtain ⟨t, he⟩ := exists_exec_eq_next i u
        rw [step_of_fetched hr hq hf, he]
        exact exists_finishCycle_eq_next t

/-- Settles O12: the cycle of a quit request is the halt alone. -/
theorem quitHaltsBeforeTheFetch : Obligations.QuitHaltsBeforeTheFetch := fun _ hr hq => step_of_quit hr hq

/-- The tone is off when the machine does not run (10_state.md R46). -/
theorem tone_of_ended {s : State} (h : s.run ≠ .running) : s.tone = false := by
  simp [State.tone, h]

/-- Settles O13: the cycle of an ended run, and its tone. -/
theorem endedRunChangesNothing : Obligations.EndedRunChangesNothing := fun _ h => ⟨step_of_ended h, tone_of_ended h⟩

/-! ## The faults of the stack (R182, R183) -/

/-- A bounded stack that holds its capacity is full (10_state.md R28). -/
theorem stackFull_of_length_eq {s : State} {n : Nat} (hd : s.params.stackDepth = .bounded n) (hl : s.stack.length = n) :
    stackFull s = true := by
  rw [← Bool.not_eq_false, stackFull_eq_false_iff]
  exact fun hroom => (hroom n hd).ne hl

/-- Settles O42: on a full stack the push fails. -/
theorem callOnAFullStackTakesStackOverflow : Obligations.CallOnAFullStackTakesStackOverflow := fun nnn s _ hd hl =>
  ⟨_, exec_call_of_full nnn (stackFull_of_length_eq hd hl), tookFault_takeFault _ s⟩

/-- Settles O45: on an empty stack the pop fails. -/
theorem returnOnAnEmptyStackTakesStackUnderflow : Obligations.ReturnOnAnEmptyStackTakesStackUnderflow := fun s hs =>
  ⟨_, exec_ret_of_nil hs, tookFault_takeFault _ s⟩

/-! ## The faults of memory accesses (R180) -/

/-- The first address out of range of an access that starts at `a` and ends beyond 4095. -/
theorem firstBeyond_eq_max (a : Nat) : (if a < 4096 then 4096 else a) = max a 4096 := by
  split <;> omega

/-- Settles O54: an access that does not fit below 4096 fails at its first address that does not. -/
theorem memoryInstructionsTakeOutOfBounds : Obligations.MemoryInstructionsTakeOutOfBounds := by
  intro x y n s first
  have hfirst : first = max s.index.toNat 4096 := firstBeyond_eq_max _
  rw [hfirst]
  refine ⟨fun h => ?setBcd, fun h => ⟨?regStore, ?regLoad⟩, fun hn h => ?draw⟩
  case setBcd => exact ⟨_, exec_setBcd_of_beyond x (by omega), tookFault_takeFault _ s⟩
  case regStore => exact ⟨_, exec_regStore_of_beyond x (by omega), tookFault_takeFault _ s⟩
  case regLoad => exact ⟨_, exec_regLoad_of_beyond x (by omega), tookFault_takeFault _ s⟩
  case draw =>
    have hrows : n.toNat ≠ 0 := fun h0 => hn (BitVec.eq_of_toNat_eq h0)
    exact ⟨_, exec_draw_of_beyond x y (by omega), tookFault_takeFault _ s⟩

end Sys2Proof.Machine
end

section
/-!
PROOFS. Reset with a program image (spec/70_reset_and_hazards.md): what `State.load` answers, and what memory holds after it.
-/

namespace Sys2Proof.Machine

/-! ## What reset answers (R210, R214) -/

/-- The font ends at or below the program's base (20_memory.md R57). -/
theorem fontEnd_le_of_wf {p : Params} (h : p.wf = true) : p.fontBase + 80 ≤ 512 := by
  simp only [Params.wf, Bool.and_eq_true, decide_eq_true_eq] at h
  exact h.2

/-- An image that fits is stored at 512, over the memory of the reset state. -/
theorem load_of_fits (c : Cfg) {p : Params} {image : List Byte} (hlen : image.length ≤ 3584) (hp : p.wf = true) :
    State.load c p image =
      .next ((State.atReset c p).setMem
        (Memory.setBytes (State.atReset c p).params (State.atReset c p).mem 512 image)) := by
  have hw : imageWf image = true := decide_eq_true hlen
  rw [State.load, if_pos hw, if_pos hp]
  rfl

/-- A longer image is refused, whatever the parameters. -/
theorem load_of_too_long (c : Cfg) (p : Params) {image : List Byte} (hlen : 3584 < image.length) :
    State.load c p image = .refused (.imageTooLarge image.length) := by
  have hw : ¬ imageWf image = true := fun h => Nat.not_le.mpr hlen (of_decide_eq_true h)
  rw [State.load, if_neg hw]

/-! ## The content of memory after reset (R211, 20_memory.md R56) -/

/-- Cell `j` of the font table. -/
theorem byteAt_atReset_font (c : Cfg) (p : Params) {j : Nat} (hj : j < 80) :
    (State.atReset c p).byteAt (p.fontBase + j) = p.fontData[j] := by
  have hin : p.fontBase ≤ p.fontBase + j ∧ p.fontBase + j < p.fontBase + 80 := by omega
  change resetByte p (p.fontBase + j) = _
  simp only [resetByte, dif_pos hin, Nat.add_sub_cancel_left]

/-- A cell outside the font table. -/
theorem byteAt_atReset_beside_font (c : Cfg) {p : Params} {a : Nat} (h : a < p.fontBase ∨ p.fontBase + 80 ≤ a) :
    (State.atReset c p).byteAt a = 0#8 := by
  have hout : ¬ (p.fontBase ≤ a ∧ a < p.fontBase + 80) := by omega
  change resetByte p a = _
  rw [resetByte, dif_neg hout]

/-- Settles O28: the image is a byte string stored at 512, below which the font ends, so that font and zeros are as the reset
state holds them. -/
theorem loadPlacesFontAndImage : Obligations.LoadPlacesFontAndImage := by
  intro c p image
  refine ⟨fun hlen hp => ?fits, load_of_too_long c p⟩
  have hreset : MemoryCanonical (State.atReset c p) := Memory.wf_nil p
  have hend : 512 + image.length ≤ 4096 := by omega
  have hfont := fontEnd_le_of_wf hp
  have hkept := sameMemoryOutside_setBytes hreset hend
  refine ⟨_, load_of_fits c hlen hp, memoryCanonical_setBytes hreset hend, rfl, fun j => byteAt_setBytes_at hreset hend,
    fun j hj => ?font, fun a himage hbeside => ?zero⟩
  case font => exact (hkept (p.fontBase + j) (by omega)).trans (byteAt_atReset_font c p hj)
  case zero => exact (hkept a himage).trans (byteAt_atReset_beside_font c hbeside)

end Sys2Proof.Machine
end
